-- ==== Sys2Proof/Word.lean ====
section
/-! DEFINITION. The byte, byte sequences and the two-character operand (00_scope.md R6, R7). -/

namespace Sys2Proof

/-- A byte, also called a character: an 8-bit unsigned value (R6). -/
abbrev Byte := BitVec 8

/-- A sequence of bytes, indexed from 0 (R7). -/
abbrev Bytes := List Byte

/-- A 2-character operand or field: first character first, never a 16-bit number (20_memory.md R45). -/
structure Pair where
  c0 : Byte
  c1 : Byte
  deriving DecidableEq, Repr, Inhabited

/-- The sequence of the two characters, first character first. -/
def Pair.bytes (p : Pair) : Bytes := [p.c0, p.c1]

end Sys2Proof
end

