-- ==== Sys2Proof/Config.lean ====
section
/-! DEFINITION. The parameters of 00_scope.md R5: the constants the spec fixes, and, as opaque constants, the OPEN
parameters and the values the spec leaves to others (92_eei_decisions.md, last section). -/

namespace Sys2Proof.Config

/-- `HEAD`: the character `@` (R5). -/
def head : Byte := 0x40#8
/-- `TERM0`: the character `*` (R5). -/
def term0 : Byte := 0x2A#8
/-- `TERM1`: carriage return (R5). -/
def term1 : Byte := 0x0D#8
/-- `DEFAULT_ADDR`: the address `"01"` (R5). -/
def defaultAddr : Pair := ⟨0x30#8, 0x31#8⟩
/-- `ADDR_LEN` (R5). -/
def addrLen : Nat := 2
/-- `SIG_LEN` (R5). -/
def sigLen : Nat := 2
/-- `FCS_LEN` (R5). -/
def fcsLen : Nat := 2
/-- `MIN_VERIFY_LEN` (R5). -/
def minVerifyLen : Nat := 2
/-- `MIN_FIELDS_LEN` (R5). -/
def minFieldsLen : Nat := 1 + addrLen + sigLen + fcsLen
/-- `ACK_SIG_OFFSET`: the spec's own choice (R5, D17). -/
def ackSigOffset : Nat := 3
/-- `ACK_MODE_LEN`: the spec's own choice, fixed by the operand layout of R72 (R5, D17). -/
def ackModeLen : Nat := 2

/-- The legal values of `RX_CAP`: "a natural number at least 3, or unbounded" (R5, D9).
The bound 3 is checked in WellFormed. -/
inductive RxCap where
  | unbounded
  | finite (n : Nat)
  deriving DecidableEq, Repr, Inhabited

/-- The parameters of the step that the spec leaves OPEN and the block reads (R5, R10). -/
structure Params where
  rxCap : RxCap
  ackModeOffset : Nat
  deriving DecidableEq, Repr, Inhabited

/-- OPEN `RX_CAP` (D9): `none` is unbounded, `some k` is a capacity of `k + 3` bytes. Log 5. -/
opaque rxCapChoice : Option Nat

/-- `RX_CAP` of this implementation, at least 3 where finite (R5). -/
def rxCap : RxCap :=
  match rxCapChoice with
  | none => .unbounded
  | some k => .finite (k + 3)

/-- OPEN `ACK_MODE_OFFSET` (R5, D17). Log 5. -/
opaque ackModeOffset : Nat

/-- The parameters of this implementation. -/
def params : Params := ⟨rxCap, ackModeOffset⟩

/-- The read families of 30_encoding.md R64, eleven as 90_conflicts.md C4 decides. -/
inductive ReadFamily where
  | analogData | digitalData | remainingSteps | operationSettings | pidZoneSettings | constValueSettings
  | stepSettings | timeSignalSettings | repeatSettings | pidParameterSettings | onOffSystemSettings
  deriving DecidableEq, Repr

/-- The write families of R64, three as 90_conflicts.md C5 decides. -/
inductive WriteFamily where
  | setStep | setConstValue | setOperation
  deriving DecidableEq, Repr

/-- OPEN `SIGNAL_CODE` of the read families (R64, D23). Log 15. -/
opaque readCode : ReadFamily → Pair
/-- OPEN `SIGNAL_CODE` of set-step (R64, D23). Log 15. -/
opaque setStepCode : Pair
/-- OPEN `SIGNAL_CODE` of set-const-value (R64, D23). Log 15. -/
opaque setConstValueCode : Pair
/-- The one signal code the spec knows: set-operation is `"53"` (R64). -/
def setOperationCode : Pair := ⟨0x35#8, 0x33#8⟩

/-- `SIGNAL_CODE` of the write families (R64). -/
def writeCode : WriteFamily → Pair
  | .setStep => setStepCode
  | .setConstValue => setConstValueCode
  | .setOperation => setOperationCode

/-- OPEN code of set_run_mode_init: "a reader must not guess it" (90_conflicts.md C5, R185). Log 15. -/
opaque runModeInitCode : Pair
/-- OPEN `READ_PARAMS(f)` (R181, D24). Log 15. -/
opaque readParams : ReadFamily → Bytes × Bytes
/-- OPEN `PAYLOAD_OPMODE(mode)` (R183, D24). Log 15. -/
opaque payloadOpMode : Pair → Bytes × Bytes
/-- OPEN `PAYLOAD_CONST(temp, slope)` (R184, D24). Log 15. -/
opaque payloadConst : Bytes → Bytes → Bytes × Bytes
/-- OPEN `PAYLOAD_RUN_INIT` (R185, D24). Log 15. -/
opaque payloadRunInit : Bytes × Bytes
/-- OPEN `PAYLOAD_STEP(...)` (R186, D24). Log 15. -/
opaque payloadStep : List Bytes → Bytes × Bytes

/-- The wording of the session's status texts that the source does not give (R220, U4, N10). Log 12. -/
opaque wording : Nat → String
/-- The status code reported beside "already opened", which the taxonomy does not place (R220). Log 11. -/
opaque alreadyOpenedCode : BitVec 3
/-- The status code reported beside "not open", which the taxonomy does not place (R220). Log 11. -/
opaque notOpenCode : BitVec 3

/-- `rd_data` when `rd_index >= rx_len`: "any value otherwise" (R70, U13). Log 17. -/
opaque rdDataBeyond : Bytes → Nat → Byte

/-- The parity settings a line configuration may name. -/
inductive Parity where
  | noParity | even | odd
  deriving DecidableEq, Repr

/-- The fixed line parameters the host hands to the transport's `open` (R5, R170). -/
structure LineConfig where
  baud : Nat
  dataBits : Nat
  parity : Parity
  stopBits : Nat
  readTimeoutMs : Nat
  writeTimeoutMs : Nat
  deriving DecidableEq, Repr

/-- 9600 baud, 8 data bits, even parity, 1 stop bit, 1000 ms timeouts (R5, R170, R173). -/
def lineConfig : LineConfig := ⟨9600, 8, .even, 1, 1000, 1000⟩

end Sys2Proof.Config
end

