-- ==== Sys2Proof/Syntax.lean ====
section
/-! DEFINITION. The events of the block: one constructor of `Instr` per row of spec/opcode_table.json (30_encoding.md
R73), and the raw form in which an event is presented at the ports (R71). -/

namespace Sys2Proof

/-- The events, the "instructions" of this hardware (R9, R73). Operands are the characters of R72; the operand bits an
opcode ignores are not part of the event (D29). -/
inductive Instr where
  /-- `NOP` (R97). -/
  | nop
  /-- `CS_CLR` (R95). -/
  | csClr
  /-- `CS_UPD b` (R96). -/
  | csUpd (b : Byte)
  /-- `FB_START addr, sig` (R112). -/
  | fbStart (addr sig : Pair)
  /-- `FB_PARAM b` (R113). -/
  | fbParam (b : Byte)
  /-- `FB_END` (R114). -/
  | fbEnd
  /-- `FP_CLR` (R141). -/
  | fpClr
  /-- `FP_ABORT` (R142). -/
  | fpAbort
  /-- `ACK_CHK sig, mode` (R150). -/
  | ackChk (sig mode : Pair)
  /-- Reserved opcode 0x9 (R76). -/
  | reserved9
  /-- Reserved opcode 0xA (R76). -/
  | reservedA
  /-- Reserved opcode 0xB (R76). -/
  | reservedB
  /-- Reserved opcode 0xC (R76). -/
  | reservedC
  /-- Reserved opcode 0xD (R76). -/
  | reservedD
  /-- Reserved opcode 0xE (R76). -/
  | reservedE
  /-- Reserved opcode 0xF (R76). -/
  | reservedF
  /-- `FP_BYTE b` (R140). -/
  | fpByte (b : Byte)
  /-- `RESET` (R250). -/
  | reset
  deriving DecidableEq, Repr

/-- What is presented at the ports, by format (R71). -/
inductive Raw where
  /-- Format `CMD`: the 36-bit word of opcode and operand. -/
  | cmd (w : BitVec 36)
  /-- Format `RXB`: the 8 bits of `rx_data` in a cycle with `rx_valid` high. -/
  | rxb (b : Byte)
  /-- Format `PIN`: the level of `rst` at a clock edge; an event only when high. -/
  | pin (rst : Bool)
  deriving DecidableEq, Repr

/-- The unit an event belongs to (R73; 20_memory.md R49). `idle` is the unit column's "none". -/
inductive Hw where
  | idle | csg | fb | fp | all
  deriving DecidableEq, Repr

/-- The unit column of R73. -/
def Instr.hw : Instr → Hw
  | .nop => .idle
  | .csClr => .csg
  | .csUpd _ => .csg
  | .fbStart _ _ => .fb
  | .fbParam _ => .fb
  | .fbEnd => .fb
  | .fpClr => .fp
  | .fpAbort => .fp
  | .ackChk _ _ => .fp
  | .reserved9 => .idle
  | .reservedA => .idle
  | .reservedB => .idle
  | .reservedC => .idle
  | .reservedD => .idle
  | .reservedE => .idle
  | .reservedF => .idle
  | .fpByte _ => .fp
  | .reset => .all

end Sys2Proof
end

