-- ==== Sys2Proof/WellFormed.lean ====
section
/-! DEFINITION. Well-formedness: of events (the types already fix every operand width, R72), of raw presentations, and
of the OPEN parameters (00_scope.md R5). -/

namespace Sys2Proof

/-- Every event whose operands have the widths of R72 is well formed; the widths are in the types, so nothing remains
to check ("they may hold anything", 41_frame_build.md R111 (c)). -/
def Instr.wellFormed : Instr → Bool
  | .nop => true
  | .csClr => true
  | .csUpd _ => true
  | .fbStart _ _ => true
  | .fbParam _ => true
  | .fbEnd => true
  | .fpClr => true
  | .fpAbort => true
  | .ackChk _ _ => true
  | .reserved9 => true
  | .reservedA => true
  | .reservedB => true
  | .reservedC => true
  | .reservedD => true
  | .reservedE => true
  | .reservedF => true
  | .fpByte _ => true
  | .reset => true

/-- A presentation is an event unless it is a low `rst` (R70, R71). -/
def Raw.wellFormed : Raw → Bool
  | .cmd _ => true
  | .rxb _ => true
  | .pin rst => rst

/-- `RX_CAP` is "a natural number at least 3, or unbounded" (R5). -/
def Config.RxCap.wellFormed : Config.RxCap → Bool
  | .unbounded => true
  | .finite n => 3 ≤ n

/-- The parameters are legal (R5); `ACK_MODE_OFFSET` is any natural number. -/
def Config.Params.wellFormed (p : Config.Params) : Bool := p.rxCap.wellFormed

end Sys2Proof
end

