-- ==== Sys2Proof/Decode.lean ====
section
/-! DEFINITION. The decoder and the encoder of the event encoding (30_encoding.md R71 to R73; opcode_table.json). -/

namespace Sys2Proof

/-- Why a presentation is no event. -/
inductive DecodeError where
  /-- `rst` is low: the cycle carries no event of format PIN (R70, R71). -/
  | rstLow
  /-- An opcode outside the map of R73. No 4-bit opcode is outside it. -/
  | opcodeOutsideMap
  deriving DecidableEq, Repr

/-- `cmd_op`: bits [35:32] of a command word (R71). -/
def opcodeOf (w : BitVec 36) : BitVec 4 := w.extractLsb' 32 4

/-- `cmd_data`: bits [31:0] of a command word (R71). -/
def dataOf (w : BitVec 36) : BitVec 32 := w.extractLsb' 0 32

/-- The operand `b` of `CS_UPD` and `FB_PARAM`: `[7:0]` (R72). -/
def byteOperand (d : BitVec 32) : Byte := d.extractLsb' 0 8

/-- The first 2-character operand: `[31:24]` then `[23:16]` (R72). -/
def upperPair (d : BitVec 32) : Pair := ⟨d.extractLsb' 24 8, d.extractLsb' 16 8⟩

/-- The second 2-character operand: `[15:8]` then `[7:0]` (R72). -/
def lowerPair (d : BitVec 32) : Pair := ⟨d.extractLsb' 8 8, d.extractLsb' 0 8⟩

/-- The opcode map of R73: the event of an opcode and its operand; ignored operand bits are not looked at (R72, D29). -/
def decodeFields (op : BitVec 4) (d : BitVec 32) : Except DecodeError Instr :=
  match op.toNat with
  | 0x0 => .ok .nop
  | 0x1 => .ok .csClr
  | 0x2 => .ok (.csUpd (byteOperand d))
  | 0x3 => .ok (.fbStart (upperPair d) (lowerPair d))
  | 0x4 => .ok (.fbParam (byteOperand d))
  | 0x5 => .ok .fbEnd
  | 0x6 => .ok .fpClr
  | 0x7 => .ok .fpAbort
  | 0x8 => .ok (.ackChk (upperPair d) (lowerPair d))
  | 0x9 => .ok .reserved9
  | 0xA => .ok .reservedA
  | 0xB => .ok .reservedB
  | 0xC => .ok .reservedC
  | 0xD => .ok .reservedD
  | 0xE => .ok .reservedE
  | 0xF => .ok .reservedF
  | _ => .error .opcodeOutsideMap

/-- The event of a command word (R71). -/
def decodeCmd (w : BitVec 36) : Except DecodeError Instr := decodeFields (opcodeOf w) (dataOf w)

/-- The event a presentation stands for (R71, R73). -/
def decode : Raw → Except DecodeError Instr
  | .cmd w => decodeCmd w
  | .rxb b => .ok (.fpByte b)
  | .pin true => .ok .reset
  | .pin false => .error .rstLow

/-- `{cmd_op, cmd_data}` (R71). -/
def cmdWord (op : BitVec 4) (d : BitVec 32) : BitVec 36 := op ++ d

/-- A byte operand in `[7:0]`, the ignored bits 0 (R72). -/
def byteData (b : Byte) : BitVec 32 := b.setWidth 32

/-- Two 2-character operands, the first character in the top byte (R72). -/
def pairData (p q : Pair) : BitVec 32 := p.c0 ++ p.c1 ++ q.c0 ++ q.c1

/-- The presentation of an event, with every ignored operand bit 0 (R71 to R73). -/
def encode : Instr → Raw
  | .nop => .cmd (cmdWord 0x0#4 0#32)
  | .csClr => .cmd (cmdWord 0x1#4 0#32)
  | .csUpd b => .cmd (cmdWord 0x2#4 (byteData b))
  | .fbStart addr sig => .cmd (cmdWord 0x3#4 (pairData addr sig))
  | .fbParam b => .cmd (cmdWord 0x4#4 (byteData b))
  | .fbEnd => .cmd (cmdWord 0x5#4 0#32)
  | .fpClr => .cmd (cmdWord 0x6#4 0#32)
  | .fpAbort => .cmd (cmdWord 0x7#4 0#32)
  | .ackChk sig mode => .cmd (cmdWord 0x8#4 (pairData sig mode))
  | .reserved9 => .cmd (cmdWord 0x9#4 0#32)
  | .reservedA => .cmd (cmdWord 0xA#4 0#32)
  | .reservedB => .cmd (cmdWord 0xB#4 0#32)
  | .reservedC => .cmd (cmdWord 0xC#4 0#32)
  | .reservedD => .cmd (cmdWord 0xD#4 0#32)
  | .reservedE => .cmd (cmdWord 0xE#4 0#32)
  | .reservedF => .cmd (cmdWord 0xF#4 0#32)
  | .fpByte b => .rxb b
  | .reset => .pin true

/-- The bits of a command word that an event's decoding looks at: the opcode and the operand bits R72 names. An event
that is no command has no command word and gets 0. -/
def operandMask : Instr → BitVec 36
  | .nop => 0xF00000000#36
  | .csClr => 0xF00000000#36
  | .csUpd _ => 0xF000000FF#36
  | .fbStart _ _ => 0xFFFFFFFFF#36
  | .fbParam _ => 0xF000000FF#36
  | .fbEnd => 0xF00000000#36
  | .fpClr => 0xF00000000#36
  | .fpAbort => 0xF00000000#36
  | .ackChk _ _ => 0xFFFFFFFFF#36
  | .reserved9 => 0xF00000000#36
  | .reservedA => 0xF00000000#36
  | .reservedB => 0xF00000000#36
  | .reservedC => 0xF00000000#36
  | .reservedD => 0xF00000000#36
  | .reservedE => 0xF00000000#36
  | .reservedF => 0xF00000000#36
  | .fpByte _ => 0#36
  | .reset => 0#36

/-- The presentation a row of opcode_table.json means by `nbits` bits of value `w`. More than 8 bits is a command word
(its bits above 35 must be 0), 8 bits is a received byte, fewer is the reset pin. The table's one-bit row RESET, told in
whole bytes, is the 8-bit word 1, and is read as RESET there (log 18). -/
def tableRaw (nbits w : Nat) : Option Raw :=
  if 8 < nbits then (if w < 2 ^ 36 then some (.cmd (BitVec.ofNat 36 w)) else none)
  else if nbits = 8 ∧ w ≠ 1 then (if w < 2 ^ 8 then some (.rxb (BitVec.ofNat 8 w)) else none)
  else if w = 1 then some (.pin true)
  else if w = 0 then some (.pin false)
  else none

/-- The event the decoder reads from a table word; `none` where it refuses. -/
def decodeTableWord (nbits w : Nat) : Option Instr :=
  match tableRaw nbits w with
  | none => none
  | some r =>
    match decode r with
    | .ok i => some i
    | .error _ => none

end Sys2Proof
end

