-- ==== Sys2Proof/Machine/State.lean ====
section
/-! DEFINITION. The state of the machine as plain data (10_state.md R10 to R28), the reasons a step can stop, and the
state after reset. -/

namespace Sys2Proof.Machine

/-- `fb_state` (R13). -/
inductive FbState where
  | idle | param
  deriving DecidableEq, Repr

/-- `fp_state` (R15). -/
inductive FpState where
  | collect | done
  deriving DecidableEq, Repr

/-- The status codes, in the order of their numbers (60_exceptions.md R220). -/
inductive Status where
  /-- `ST_NONE`: no result yet. -/
  | stNone
  /-- `ST_OK`: success. -/
  | stOk
  /-- `ST_PORT_UNAVAILABLE`: host only. -/
  | stPortUnavailable
  /-- `ST_TRANSPORT_FAULT`. -/
  | stTransportFault
  /-- `ST_CHECKSUM_MISMATCH`. -/
  | stChecksumMismatch
  /-- `ST_ACK_MISMATCH`. -/
  | stAckMismatch
  /-- `ST_EMPTY_RESPONSE`. -/
  | stEmptyResponse
  /-- `ST_OVERRUN`. -/
  | stOverrun
  deriving DecidableEq, Repr

/-- Where in a transaction the transport failed (43_session_commands.md R175 steps 3 and 4). -/
inductive FaultPhase where
  | write | read
  deriving DecidableEq, Repr

/-- Why the transport gave up: "a timeout or another fault" (42_frame_parse.md R142). -/
inductive FaultCause where
  | timeout | otherFault
  deriving DecidableEq, Repr

/-- The session's status texts, by occasion (R27, R220). The five the source words are rendered in Machine/Session.lean;
the others have no wording in the source (N10, log 12). -/
inductive StatusText where
  | atCreation | success | alreadyOpened | notOpen | portNotOpen | openFailed | closeFailed
  | transportFault (phase : FaultPhase) (cause : FaultCause)
  | checksumError | operationSettingFailed | emptyResponse | overrun | other
  deriving DecidableEq, Repr

/-- `sess_status`: "a status code of R220 together with its string" (R27). -/
structure SessionStatus where
  code : Status
  text : StatusText
  deriving DecidableEq, Repr

/-- The host's state, outside the block (R27); `address` is "the session's controller address" of R175. -/
structure Session where
  isOpen : Bool
  address : Pair
  lastTx : Bytes
  lastRx : Bytes
  status : SessionStatus
  deriving DecidableEq, Repr

/-- Why the machine stops. -/
inductive Fault where
  /-- Raised by `step` when no event is waiting in `pending`: a run is a finite sequence of events and this one is over
  (70_reset_and_hazards.md R253). Safe: no claim about a next state follows. -/
  | endOfInput
  deriving DecidableEq, Repr

/-- Why the machine gives no meaning. -/
inductive Refusal where
  /-- Raised by an arm of `exec` that has no meaning yet; no arm raises it. Safe. -/
  | notModelled (mnemonic : String)
  /-- Raised by `step` for a queued presentation that is no event, a low `rst` (30_encoding.md R71). Safe. -/
  | undecodable (e : DecodeError)
  /-- Raised by `memRead` for a read outside the latched line (20_memory.md R44). Safe. -/
  | readOutsideLine (index count : Nat)
  deriving DecidableEq, Repr

/-- The state: the block's nine pieces (R10), then the model's own three, then the host's (R27). -/
structure State where
  /-- `cs_acc` (R11). -/
  csAcc : Byte
  /-- `fb_state` (R13). -/
  fbState : FbState
  /-- `tx_acc` (R13). -/
  txAcc : Byte
  /-- `tx_out` (R14). -/
  txOut : Bytes
  /-- `fp_state` (R15). -/
  fpState : FpState
  /-- `rx_buf` (R16). -/
  rxBuf : Bytes
  /-- `rx_line` (R17). -/
  rxLine : Bytes
  /-- `rx_status` (R18). -/
  rxStatus : Status
  /-- `ack_ok` (R19). -/
  ackOk : Bool
  /-- The output `cmd_reject` of the latest step; not the block's state (R21, R76; log 4). -/
  cmdReject : Bool
  /-- The events presented and not yet taken, in order (R49, R74; log 1). -/
  pending : List Raw
  /-- The OPEN parameters of the step (R5, R10; log 5). -/
  params : Config.Params
  /-- The host's session (R27; log 8). -/
  session : Session
  deriving DecidableEq, Repr

/-- The session as created: "created closed" (R27, R28). -/
def Session.created : Session :=
  { isOpen := false, address := Config.defaultAddr, lastTx := [], lastRx := [], status := ⟨.stNone, .atCreation⟩ }

/-- The machine right after reset (R28). -/
def State.reset : State :=
  { csAcc := 0x00#8, fbState := .idle, txAcc := 0x00#8, txOut := [], fpState := .collect, rxBuf := [], rxLine := [],
    rxStatus := .stNone, ackOk := false, cmdReject := false, pending := [], params := Config.params,
    session := Session.created }

end Sys2Proof.Machine
end

