-- ==== Sys2Proof/Machine/Checksum.lean ====
section
/-! DEFINITION. The XOR checksum and its two-digit form (40_checksum.md R90 to R93), sequences (00_scope.md R7), and
the verification of a line (42_frame_parse.md R132, R133). -/

namespace Sys2Proof.Machine

/-- `slice(s, i, j)`, half open (R7). Every use is within `0 <= i <= j <= len(s)`. -/
def slice (s : Bytes) (i j : Nat) : Bytes := (s.take j).drop i

/-- `XORFOLD(s)`: the running XOR from 0x00 (R90). -/
def xorFold (s : Bytes) : Byte := s.foldl (fun acc b => acc ^^^ b) 0x00#8

/-- `DIGIT(n)`: `0x30 + n` for `n <= 9`, else `0x37 + n` (R63, R92). -/
def hexDigit (n : BitVec 4) : Byte :=
  if n.toNat ≤ 9 then 0x30#8 + n.setWidth 8 else 0x37#8 + n.setWidth 8

/-- `HEXHI(v)`: the digit of `v[7:4]` (R92). -/
def hexHi (v : Byte) : Byte := hexDigit (v.extractLsb' 4 4)

/-- `HEXLO(v)`: the digit of `v[3:0]` (R92). -/
def hexLo (v : Byte) : Byte := hexDigit (v.extractLsb' 0 4)

/-- `HEX2(v)`: high nibble first (R93). -/
def hex2 (v : Byte) : Bytes := [hexHi v, hexLo v]

/-- `FCSEQ(field, v)`: character for character, never numerically (R93, C8). -/
def fcsEq (field : Bytes) (v : Byte) : Bool :=
  match field with
  | [h, l] => h == hexHi v && l == hexLo v
  | _ => false

/-- `VERIFY(line)`: false below two characters, else the last two against the checksum of the rest (R132). -/
def verify (line : Bytes) : Bool :=
  if line.length < 2 then false
  else fcsEq (slice line (line.length - 2) line.length) (xorFold (slice line 0 (line.length - 2)))

/-- The body of a line: all but its last two characters, empty below two (R61, R135, R151). -/
def bodyOf (line : Bytes) : Bytes :=
  if line.length < 2 then [] else slice line 0 (line.length - 2)

/-- `DECODE(line)`: the body, or the checksum failure (R133). -/
def decodeLine (line : Bytes) : Except Status Bytes :=
  if verify line then .ok (bodyOf line) else .error .stChecksumMismatch

end Sys2Proof.Machine
end

