-- ==== Sys2Proof/Machine/Ops.lean ====
section
/-! DEFINITION. The shared operations over the state: taking the next event, accepting and rejecting a command, emitting
bytes, latching a failure and clearing it (the block's exception entry and return), and reading the latched line. -/

namespace Sys2Proof.Machine

/-- Sequencing of outcomes: go on from a next state, stop where the first part stopped. -/
def andThen {α β : Type} (o : Host.Outcome α Fault Refusal) (f : α → Host.Outcome β Fault Refusal) :
    Host.Outcome β Fault Refusal :=
  match o with
  | .next a => f a
  | .fault r => .fault r
  | .refused r => .refused r

/-- Taking the next event from the input sequence, in its order (20_memory.md R49). -/
def fetch (s : State) : Option (Raw × State) :=
  match s.pending with
  | [] => none
  | r :: rest => some (r, { s with pending := rest })

/-- The event of this step was not rejected: `cmd_reject` is 0 (30_encoding.md R76). -/
def accepted (s : State) : State := { s with cmdReject := false }

/-- `reject`: "the event changes no state and the step's output `cmd_reject` is 1" (R8, R76). -/
def rejected (s : State) : State := { s with cmdReject := true }

/-- `emit(s)`: append to the transmit trace (R41). -/
def emit (bs : Bytes) (s : State) : State := { s with txOut := s.txOut ++ bs }

/-- Does the latched line stay readable with this status? The line for `ST_CHECKSUM_MISMATCH` and `ST_OK`, the empty
sequence otherwise (60_exceptions.md R226). -/
def retainsLine : Status → Bool
  | .stNone => false
  | .stOk => true
  | .stPortUnavailable => false
  | .stTransportFault => false
  | .stChecksumMismatch => true
  | .stAckMismatch => true
  | .stEmptyResponse => false
  | .stOverrun => false

/-- `raise <Status>`, the block's exception entry (R226): the status and the line are latched, the buffer is emptied and
FP goes to `FP_DONE`; an acknowledgement mismatch writes `rx_status` and `ack_ok` only. -/
def raise (st : Status) (line : Bytes) (s : State) : State :=
  match st with
  | .stAckMismatch => { s with rxStatus := .stAckMismatch, ackOk := false }
  | st => { s with rxStatus := st, rxLine := if retainsLine st then line else [], rxBuf := [], fpState := .done }

/-- The way out of a latched result, the block's exception return (R227; 42_frame_parse.md R141). -/
def clearFp (s : State) : State :=
  { s with rxBuf := [], rxLine := [], rxStatus := .stNone, ackOk := false, fpState := .collect }

/-- `RX_CAP` reached: `n == RX_CAP`, "never true when RX_CAP is unbounded" (R140). -/
def capReached : Config.RxCap → Nat → Bool
  | .unbounded, _ => false
  | .finite c, n => n == c

/-- `MemRead(i, n)`: `slice(rx_line, i, i+n)`, refused outside the line (R44, D16). Reading changes nothing. -/
def memRead (i n : Nat) (s : State) : Host.Outcome Bytes Fault Refusal :=
  if i + n ≤ s.rxLine.length then .next (slice s.rxLine i (i + n)) else .refused (.readOutsideLine i n)

end Sys2Proof.Machine
end

