-- ==== Sys2Proof/Machine/Operands.lean ====
section
/-! DEFINITION. The sequences operands and fields stand for: the parts of a frame (30_encoding.md R60, R61, R65), the
request (41_frame_build.md R110), the end of a line (42_frame_parse.md R131), and the acknowledgement fields (R151). -/

namespace Sys2Proof.Machine

/-- `[0x40] ++ address ++ signal_code`: what `FB_START` emits (R112). -/
def frameHead (addr sig : Pair) : Bytes := Config.head :: (addr.bytes ++ sig.bytes)

/-- The terminator, `*` then carriage return (R60). -/
def terminator : Bytes := [Config.term0, Config.term1]

/-- `[HEXHI, HEXLO, 0x2A, 0x0D]`: what `FB_END` emits (R114). -/
def frameTail (fcs : Byte) : Bytes := hex2 fcs ++ terminator

/-- The checksum-protected part of a request: that exact concatenation (R65 (c), R110). -/
def requestBody (addr sig : Pair) (a b : Bytes) : Bytes := frameHead addr sig ++ a ++ b

/-- `BUILD_REQUEST(address, signal_code, param_a, param_b)` (R110). -/
def buildRequest (addr sig : Pair) (a b : Bytes) : Bytes :=
  requestBody addr sig a b ++ hex2 (xorFold (requestBody addr sig a b)) ++ terminator

/-- The line of a frame: the frame without its terminator (R61). -/
def lineOf (f : Bytes) : Bytes := slice f 0 (f.length - 2)

/-- A well-formed frame: at least 9 bytes, head, terminator and a checksum field that fits (R60, R61). -/
def wellFormedFrame (f : Bytes) : Bool :=
  9 ≤ f.length && slice f 0 1 == [Config.head] && slice f (f.length - 2) f.length == terminator &&
    slice f (f.length - 4) (f.length - 2) == hex2 (xorFold (slice f 0 (f.length - 4)))

/-- Does the pair `*`, carriage return occur anywhere in the sequence (R26 (x), R131)? -/
def hasTerminator : Bytes → Bool
  | [] => false
  | a :: rest =>
    match rest with
    | [] => false
    | b :: _ => (a == Config.term0 && b == Config.term1) || hasTerminator rest

/-- `SPLITLINE(s)`: the line before the first terminator pair and the rest after it; `none` while the line is not
complete (R131). -/
def splitLine : Bytes → Option (Bytes × Bytes)
  | [] => none
  | a :: rest =>
    match rest with
    | [] => none
    | b :: after =>
      if a = Config.term0 ∧ b = Config.term1 then some ([], after)
      else
        match splitLine rest with
        | none => none
        | some (line, r) => some (a :: line, r)

/-- The address field of a line long enough to hold it: `slice(line, 1, 3)` (R137). -/
def addrField (line : Bytes) : Bytes := slice line 1 3

/-- The signal code field: `slice(line, 3, 5)` (R137). -/
def sigField (line : Bytes) : Bytes := slice line 3 5

/-- The payload field: `slice(line, 5, L-2)` (R138). -/
def payloadField (line : Bytes) : Bytes := slice line 5 (line.length - 2)

/-- One echoed field: it lies wholly inside the body and equals the operand (R151). -/
def ackField (body : Bytes) (offset : Nat) (want : Bytes) : Bool :=
  offset + want.length ≤ body.length && slice body offset (offset + want.length) == want

/-- `ACKMATCH(line, sig, mode)` for the given `ACK_MODE_OFFSET` (R151). -/
def ackMatch (modeOffset : Nat) (line : Bytes) (sig mode : Pair) : Bool :=
  ackField (bodyOf line) Config.ackSigOffset sig.bytes && ackField (bodyOf line) modeOffset mode.bytes

end Sys2Proof.Machine
end

