-- ==== Sys2Proof/Machine/Flags.lean ====
section
/-! DEFINITION. Every flag computation: the one-bit outputs (10_state.md R20, R21), the numeric codes of the statuses and
states (60_exceptions.md R220; R13, R15), and when a command is rejected (30_encoding.md R76). -/

namespace Sys2Proof.Machine

/-- The 3-bit code of a status (R220). -/
def statusCode : Status → BitVec 3
  | .stNone => 0#3
  | .stOk => 1#3
  | .stPortUnavailable => 2#3
  | .stTransportFault => 3#3
  | .stChecksumMismatch => 4#3
  | .stAckMismatch => 5#3
  | .stEmptyResponse => 6#3
  | .stOverrun => 7#3

/-- The status of a 3-bit code; every value is legal (R22). -/
def statusOfCode (c : BitVec 3) : Status :=
  match c.toNat with
  | 0 => .stNone
  | 1 => .stOk
  | 2 => .stPortUnavailable
  | 3 => .stTransportFault
  | 4 => .stChecksumMismatch
  | 5 => .stAckMismatch
  | 6 => .stEmptyResponse
  | _ => .stOverrun

/-- The encoding of `fb_state` (R13). -/
def fbStateCode : FbState → BitVec 1
  | .idle => 0#1
  | .param => 1#1

/-- The encoding of `fp_state` (R15). -/
def fpStateCode : FpState → BitVec 1
  | .collect => 0#1
  | .done => 1#1

/-- `fb_busy` (R20). -/
def fbBusy (s : State) : Bool := s.fbState == .param

/-- `rx_done` (R20). -/
def rxDone (s : State) : Bool := s.fpState == .done

/-- `rx_fcs_ok` (R20). -/
def rxFcsOk (s : State) : Bool := verify s.rxLine

/-- `rx_head_ok`: the latched line starts with the head (R20, R136). -/
def rxHeadOk (s : State) : Bool :=
  match s.rxLine with
  | [] => false
  | c :: _ => c == Config.head

/-- `rx_fields_valid`: at least `MIN_FIELDS_LEN` bytes (R20, R137). -/
def rxFieldsValid (s : State) : Bool := Config.minFieldsLen ≤ s.rxLine.length

/-- When a command is rejected: a reserved opcode, or a command in the wrong state (R76). -/
def isRejected (i : Instr) (s : State) : Bool :=
  match i with
  | .nop => false
  | .csClr => false
  | .csUpd _ => false
  | .fbStart _ _ => s.fbState == .param
  | .fbParam _ => s.fbState == .idle
  | .fbEnd => s.fbState == .idle
  | .fpClr => false
  | .fpAbort => false
  | .ackChk _ _ => s.fpState == .collect
  | .reserved9 => true
  | .reservedA => true
  | .reservedB => true
  | .reservedC => true
  | .reservedD => true
  | .reservedE => true
  | .reservedF => true
  | .fpByte _ => false
  | .reset => false

end Sys2Proof.Machine
end

