-- ==== Sys2Proof/Machine/Csg.lean ====
section
/-! DEFINITION. The checksum generator's events and NOP (40_checksum.md R95 to R97). -/

namespace Sys2Proof.Machine

/-- `NOP`: nothing; never rejected (R97). -/
def execNop (s : State) : Host.Outcome State Fault Refusal := .next (accepted s)

/-- `CS_CLR`: `cs_acc <- 0x00` (R95). -/
def execCsClr (s : State) : Host.Outcome State Fault Refusal := .next (accepted { s with csAcc := 0x00#8 })

/-- `CS_UPD b`: `cs_acc <- cs_acc ^ b` (R96). -/
def execCsUpd (b : Byte) (s : State) : Host.Outcome State Fault Refusal :=
  .next (accepted { s with csAcc := s.csAcc ^^^ b })

end Sys2Proof.Machine
end

