-- ==== Sys2Proof/Machine/Fb.lean ====
section
/-! DEFINITION. The frame builder's events (41_frame_build.md R112 to R114). -/

namespace Sys2Proof.Machine

/-- `FB_START addr, sig`: emit the head, start the checksum; rejected while a frame is open (R112, R76 (b)). -/
def execFbStart (addr sig : Pair) (s : State) : Host.Outcome State Fault Refusal :=
  .next <|
    match s.fbState with
    | .param => rejected s
    | .idle =>
      accepted
        { emit (frameHead addr sig) s with
          txAcc := Config.head ^^^ addr.c0 ^^^ addr.c1 ^^^ sig.c0 ^^^ sig.c1, fbState := .param }

/-- `FB_PARAM b`: emit one byte unchecked and fold it in; rejected while idle (R113, R76 (c)). -/
def execFbParam (b : Byte) (s : State) : Host.Outcome State Fault Refusal :=
  .next <|
    match s.fbState with
    | .idle => rejected s
    | .param => accepted { emit [b] s with txAcc := s.txAcc ^^^ b }

/-- `FB_END`: emit the checksum digits and the terminator; `tx_acc` keeps its value; rejected while idle (R114,
R76 (c)). -/
def execFbEnd (s : State) : Host.Outcome State Fault Refusal :=
  .next <|
    match s.fbState with
    | .idle => rejected s
    | .param => accepted { emit (frameTail s.txAcc) s with fbState := .idle }

end Sys2Proof.Machine
end

