-- ==== Sys2Proof/Machine/Fp.lean ====
section
/-! DEFINITION. The frame parser's events (42_frame_parse.md R140 to R142, R144, R150). -/

namespace Sys2Proof.Machine

/-- The status a completed line gets: the empty line first, then the checksum (R144, 60_exceptions.md R223 (4)). -/
def judge (line : Bytes) : Status :=
  if line.length = 0 then .stEmptyResponse
  else if verify line then .stOk
  else .stChecksumMismatch

/-- `COMPLETE(line)` (R144). -/
def complete (line : Bytes) (s : State) : State := raise (judge line) line s

/-- What `FP_BYTE b` does to the state: dropped in `FP_DONE`; else the terminator test before the capacity test (R140). -/
def takeByte (b : Byte) (s : State) : State :=
  match s.fpState with
  | .done => s
  | .collect =>
    if b = Config.term1 ∧ s.rxBuf.getLast? = some Config.term0 then
      complete (slice s.rxBuf 0 (s.rxBuf.length - 1)) s
    else if capReached s.params.rxCap s.rxBuf.length then raise .stOverrun [] s
    else { s with rxBuf := s.rxBuf ++ [b] }

/-- `FP_BYTE b`: one received byte; never rejected (R140). -/
def execFpByte (b : Byte) (s : State) : Host.Outcome State Fault Refusal := .next (accepted (takeByte b s))

/-- `FP_CLR`: forget received bytes and results (R141). -/
def execFpClr (s : State) : Host.Outcome State Fault Refusal := .next (accepted (clearFp s))

/-- `FP_ABORT`: latch a transport fault while collecting; a result already latched stands (R142). -/
def execFpAbort (s : State) : Host.Outcome State Fault Refusal :=
  .next <|
    accepted <|
      match s.fpState with
      | .collect => raise .stTransportFault [] s
      | .done => s

/-- The verdict of `ACK_CHK`: recomputed on a verified line, an earlier failure kept (R150). -/
def ackVerdict (sig mode : Pair) (s : State) : State :=
  match s.rxStatus with
  | .stOk | .stAckMismatch =>
    if ackMatch s.params.ackModeOffset s.rxLine sig mode then { s with ackOk := true, rxStatus := .stOk }
    else raise .stAckMismatch s.rxLine s
  | .stNone | .stPortUnavailable | .stTransportFault | .stChecksumMismatch | .stEmptyResponse | .stOverrun =>
    { s with ackOk := false }

/-- `ACK_CHK sig, mode`: rejected before a result is latched (R150, R76 (d)). -/
def execAckChk (sig mode : Pair) (s : State) : Host.Outcome State Fault Refusal :=
  .next <|
    match s.fpState with
    | .collect => rejected s
    | .done => accepted (ackVerdict sig mode s)

end Sys2Proof.Machine
end

