-- ==== Sys2Proof/Machine/System.lean ====
section
/-! DEFINITION. RESET (70_reset_and_hazards.md R250) and the reserved opcodes (30_encoding.md R76 (a)). -/

namespace Sys2Proof.Machine

/-- Every register of the block to its reset value; the host's session, the parameters and the events still to come are
not the block's and stay (R28, R250; log 27). The trace restarts empty: bytes the transport has already taken are not
recalled, and emitted bytes it has not taken are offered no more, the model's choice (log 29). -/
def resetBlock (s : State) : State :=
  { s with
    csAcc := 0x00#8, fbState := .idle, txAcc := 0x00#8, txOut := [], fpState := .collect, rxBuf := [], rxLine := [],
    rxStatus := .stNone, ackOk := false }

/-- `RESET`: never rejected (R250). -/
def execReset (s : State) : Host.Outcome State Fault Refusal := .next (accepted (resetBlock s))

/-- Reserved opcode 0x9: rejected (R76 (a)). -/
def execReserved9 (s : State) : Host.Outcome State Fault Refusal := .next (rejected s)

/-- Reserved opcode 0xA: rejected (R76 (a)). -/
def execReservedA (s : State) : Host.Outcome State Fault Refusal := .next (rejected s)

/-- Reserved opcode 0xB: rejected (R76 (a)). -/
def execReservedB (s : State) : Host.Outcome State Fault Refusal := .next (rejected s)

/-- Reserved opcode 0xC: rejected (R76 (a)). -/
def execReservedC (s : State) : Host.Outcome State Fault Refusal := .next (rejected s)

/-- Reserved opcode 0xD: rejected (R76 (a)). -/
def execReservedD (s : State) : Host.Outcome State Fault Refusal := .next (rejected s)

/-- Reserved opcode 0xE: rejected (R76 (a)). -/
def execReservedE (s : State) : Host.Outcome State Fault Refusal := .next (rejected s)

/-- Reserved opcode 0xF: rejected (R76 (a)). -/
def execReservedF (s : State) : Host.Outcome State Fault Refusal := .next (rejected s)

end Sys2Proof.Machine
end

