-- ==== Sys2Proof/Machine/Dispatch.lean ====
section
/-! DEFINITION. The meaning of every event, one arm per constructor (30_encoding.md R73). -/

namespace Sys2Proof.Machine

/-- One event, atomically (20_memory.md R47). -/
def exec (i : Instr) (s : State) : Host.Outcome State Fault Refusal :=
  match i with
  | .nop => Sys2Proof.Machine.execNop s
  | .csClr => Sys2Proof.Machine.execCsClr s
  | .csUpd b => Sys2Proof.Machine.execCsUpd b s
  | .fbStart addr sig => Sys2Proof.Machine.execFbStart addr sig s
  | .fbParam b => Sys2Proof.Machine.execFbParam b s
  | .fbEnd => Sys2Proof.Machine.execFbEnd s
  | .fpClr => Sys2Proof.Machine.execFpClr s
  | .fpAbort => Sys2Proof.Machine.execFpAbort s
  | .ackChk sig mode => Sys2Proof.Machine.execAckChk sig mode s
  | .reserved9 => Sys2Proof.Machine.execReserved9 s
  | .reservedA => Sys2Proof.Machine.execReservedA s
  | .reservedB => Sys2Proof.Machine.execReservedB s
  | .reservedC => Sys2Proof.Machine.execReservedC s
  | .reservedD => Sys2Proof.Machine.execReservedD s
  | .reservedE => Sys2Proof.Machine.execReservedE s
  | .reservedF => Sys2Proof.Machine.execReservedF s
  | .fpByte b => Sys2Proof.Machine.execFpByte b s
  | .reset => Sys2Proof.Machine.execReset s

end Sys2Proof.Machine
end

