-- ==== Sys2Proof/Machine/Present.lean ====
section
/-! DEFINITION. Doing what is presented at the ports: a raw presentation is decoded and its event done (30_encoding.md R71,
R73), one or several in order (R74). -/

namespace Sys2Proof.Machine

/-- Doing one presentation: its event, or a refusal by name where it is no event (log 3). -/
def doPresented (r : Raw) (s : State) : Host.Outcome State Fault Refusal :=
  match decode r with
  | .ok i => exec i s
  | .error e => .refused (.undecodable e)

/-- Doing presentations one after the other. -/
def doAllPresented : List Raw → State → Host.Outcome State Fault Refusal
  | [], s => .next s
  | r :: rs, s => andThen (doPresented r s) (doAllPresented rs)

end Sys2Proof.Machine
end

