-- ==== Sys2Proof/Machine/Step.lean ====
section
/-! DEFINITION. One step: take the next event of the input sequence, decode it and do it (00_scope.md R4). -/

namespace Sys2Proof.Machine

/-- One step consumes one event (R4, R49). -/
def step (s : State) : Host.Outcome State Fault Refusal :=
  match fetch s with
  | none => .fault .endOfInput
  | some (r, s') => doPresented r s'

/-- The state with a table word presented as the next event: what the host or the transport does from outside (log 1). -/
def State.withFetchWord (s : State) (nbits w : Nat) : State :=
  match tableRaw nbits w with
  | none => s
  | some r => { s with pending := r :: s.pending }

end Sys2Proof.Machine
end

