-- ==== Sys2Proof/Machine/Outputs.lean ====
section
/-! DEFINITION. The outputs that are functions of the state and are wider than one bit (10_state.md R20), and the ports
that show the latched line and the transmit trace (30_encoding.md R70). -/

namespace Sys2Proof.Machine

/-- The filler of a 2-byte output whose qualifying flag is 0 (R20). -/
def filler : Bytes := [0x00#8, 0x00#8]

/-- `cs_value` (R20, R94). -/
def csValue (s : State) : Byte := s.csAcc

/-- `cs_hex` (R20, R94). -/
def csHex (s : State) : Bytes := hex2 s.csAcc

/-- `fb_fcs` (R20). -/
def fbFcs (s : State) : Byte := s.txAcc

/-- `rx_len` (R20). -/
def rxLen (s : State) : Nat := s.rxLine.length

/-- `rx_fcs_calc` (R20, R134). -/
def rxFcsCalc (s : State) : Byte :=
  if 2 ≤ s.rxLine.length then xorFold (slice s.rxLine 0 (s.rxLine.length - 2)) else 0x00#8

/-- `rx_fcs_field` (R20, R134). -/
def rxFcsField (s : State) : Bytes :=
  if 2 ≤ s.rxLine.length then slice s.rxLine (s.rxLine.length - 2) s.rxLine.length else filler

/-- `rx_body` (R20, R135). -/
def rxBody (s : State) : Bytes := bodyOf s.rxLine

/-- `rx_addr` (R20, R137). -/
def rxAddr (s : State) : Bytes := if rxFieldsValid s then addrField s.rxLine else filler

/-- `rx_sig` (R20, R137). -/
def rxSig (s : State) : Bytes := if rxFieldsValid s then sigField s.rxLine else filler

/-- `rx_payload` (R20, R138). -/
def rxPayload (s : State) : Bytes := if rxFieldsValid s then payloadField s.rxLine else []

/-- `rd_data`: the indexed byte of the line, any value beyond it (R70, U13). -/
def rdData (index : Nat) (s : State) : Byte :=
  match s.rxLine[index]? with
  | some b => b
  | none => Config.rdDataBeyond s.rxLine index

/-- A 2-byte output as it stands on its 16 pins: the first character in bits [15:8] (R70). Every output this is used for
has exactly two bytes (Laws/Pins.lean). -/
def pinsOfTwo (bs : Bytes) : BitVec 16 :=
  match bs with
  | [c0, c1] => c0 ++ c1
  | _ => 0#16

/-- The outputs of R20 as they stand on their pins (R70): a 2-byte output is 16 bits wide, `rx_status` its 3-bit code
(R220). `rx_len`, `rx_body` and `rx_payload` have no width in the spec and stay a number and byte sequences (log 22). -/
structure OutputPins where
  csValue : Byte
  csHex : BitVec 16
  fbBusy : Bool
  fbFcs : Byte
  rxDone : Bool
  rxLen : Nat
  rxFcsCalc : Byte
  rxFcsField : BitVec 16
  rxFcsOk : Bool
  rxHeadOk : Bool
  rxFieldsValid : Bool
  rxBody : Bytes
  rxAddr : BitVec 16
  rxSig : BitVec 16
  rxPayload : Bytes
  rxStatus : BitVec 3
  ackOk : Bool
  deriving DecidableEq, Repr

/-- The output pins that are "recomputed from the state at every moment" (R20, R70). -/
def outputPins (s : State) : OutputPins :=
  { csValue := csValue s, csHex := pinsOfTwo (csHex s), fbBusy := fbBusy s, fbFcs := fbFcs s, rxDone := rxDone s,
    rxLen := rxLen s, rxFcsCalc := rxFcsCalc s, rxFcsField := pinsOfTwo (rxFcsField s), rxFcsOk := rxFcsOk s,
    rxHeadOk := rxHeadOk s, rxFieldsValid := rxFieldsValid s, rxBody := rxBody s, rxAddr := pinsOfTwo (rxAddr s),
    rxSig := pinsOfTwo (rxSig s), rxPayload := rxPayload s, rxStatus := statusCode s.rxStatus, ackOk := s.ackOk }

/-- `tx_valid` when the transport has taken the first `taken` bytes of the trace: a byte is offered (R70). After RESET the
trace is empty and nothing is offered: bytes emitted and not yet taken then are dropped, the model's choice (log 29). -/
def txValid (taken : Nat) (s : State) : Bool := taken < s.txOut.length

/-- `tx_data` when the transport has taken the first `taken` bytes: the next one in order, if any (R41, R70). -/
def txData (taken : Nat) (s : State) : Option Byte := s.txOut[taken]?

/-- The byte that moves to the transport in a cycle, "exactly when `tx_valid && tx_ready`" (R70). -/
def txMoved (taken : Nat) (txReady : Bool) (s : State) : Option Byte := if txReady then txData taken s else none

/-- How many bytes of the trace the transport has taken after a cycle that begins in `s`: one more when a byte moved (R70).
RESET restarts the count with the trace, the model's choice (log 29). -/
def txTaken (rst : Bool) (taken : Nat) (txReady : Bool) (s : State) : Nat :=
  if rst then 0 else if txValid taken s && txReady then taken + 1 else taken

/-- `cmd_ready` "may be low only while bytes emitted by an earlier `FB_*` command have not yet all been taken by the
transport" and is low while `rst` is high (R70, R74): the levels of `cmd_ready` an implementation may show. -/
def cmdReadyAllowed (rst : Bool) (taken : Nat) (s : State) (ready : Bool) : Bool :=
  if rst then !ready else ready || txValid taken s

end Sys2Proof.Machine
end

