-- ==== Sys2Proof/Machine/Pseudo.lean ====
section
/-! DEFINITION. Event sequences: doing a list of events in order, and the pseudo-instructions CSUM, BUILD, RXSEQ, RECV
(30_encoding.md R79). -/

namespace Sys2Proof.Machine

/-- The events of a list, one after the other. -/
def execAll : List Instr → State → Host.Outcome State Fault Refusal
  | [], s => .next s
  | i :: is, s => andThen (exec i s) (execAll is)

/-- A number of steps, stopping where a step stops: a run of the machine on its waiting input (R253). -/
def stepN : Nat → State → Host.Outcome State Fault Refusal
  | 0, s => .next s
  | k + 1, s => andThen (step s) (stepN k)

/-- `CSUM s` (R79). -/
def csumEvents (bs : Bytes) : List Instr := .csClr :: bs.map .csUpd

/-- `BUILD addr, sig, a, b` (R79). -/
def buildEvents (addr sig : Pair) (a b : Bytes) : List Instr :=
  .fbStart addr sig :: (a.map .fbParam ++ b.map .fbParam ++ [.fbEnd])

/-- `RXSEQ s` (R79). -/
def rxSeqEvents (bs : Bytes) : List Instr := bs.map .fpByte

/-- `RECV s` (R79). -/
def recvEvents (bs : Bytes) : List Instr := .fpClr :: rxSeqEvents bs

/-- The events of a sequence that touch one unit: its own and RESET (20_memory.md R49). "Interleaved freely" (R98, R115)
means that only these are fixed. -/
def unitEvents (u : Hw) (is : List Instr) : List Instr := is.filter fun i => i.hw == u || i.hw == .all

end Sys2Proof.Machine
end

