-- ==== Sys2Proof/Machine/Pins.lean ====
section
/-! DEFINITION. The pin-level wrapper as far as the spec describes it: which events one clock cycle carries, in which order,
and what the ports show and move in it (30_encoding.md R70, R74). -/

namespace Sys2Proof.Machine

/-- The input pins in one clock cycle, with the level `cmd_ready` shows in it (R70; log 22). -/
structure Cycle where
  rst : Bool
  cmdValid : Bool
  cmdReady : Bool
  cmdOp : BitVec 4
  cmdData : BitVec 32
  rxValid : Bool
  rxData : Byte
  deriving DecidableEq, Repr

/-- The command a cycle carries: "an event happens exactly when `cmd_valid && cmd_ready`" (R70). -/
def cycleCommand (c : Cycle) : List Raw :=
  if c.cmdValid && c.cmdReady then [.cmd (cmdWord c.cmdOp c.cmdData)] else []

/-- The received byte a cycle carries; there is no back-pressure (R70). -/
def cycleByte (c : Cycle) : List Raw := if c.rxValid then [.rxb c.rxData] else []

/-- The events of one cycle: RESET alone if `rst` is high, else the command before the byte (R74). -/
def cycleEvents (c : Cycle) : List Raw := if c.rst then [.pin true] else cycleCommand c ++ cycleByte c

/-- The events of a run of cycles, presented after those already waiting: "the concatenation of these per-cycle events"
(R74). -/
def presentCycles (cs : List Cycle) (s : State) : State :=
  { s with pending := s.pending ++ (cs.map cycleEvents).flatten }

/-- The level of `cmd_reject` in a cycle that begins in `s`: "the command taken this cycle was rejected" (R70, R76). The
command is the cycle's first event, so it is judged on the state the cycle begins in, whatever byte comes with it. -/
def cycleReject (c : Cycle) (s : State) : Bool :=
  if c.rst then false
  else if c.cmdValid && c.cmdReady then
    match decode (.cmd (cmdWord c.cmdOp c.cmdData)) with
    | .ok i => isRejected i s
    | .error _ => false
  else false

/-- The block behind its pins: its state and how many bytes of the trace the transport has taken (log 7). -/
structure Wrapper where
  block : State
  taken : Nat
  deriving DecidableEq, Repr

/-- What a cycle shows besides the outputs of the state: `cmd_reject`, and the byte that moves to the transport. -/
structure CycleShown where
  cmdReject : Bool
  txByte : Option Byte
  deriving DecidableEq, Repr

/-- One clock cycle: the byte offered at its start may move, the cycle's events are done in their order, and the level of
`cmd_reject` belongs to the cycle's command (R70, R74, R76). -/
def clockCycle (c : Cycle) (txReady : Bool) (w : Wrapper) : Host.Outcome (Wrapper × CycleShown) Fault Refusal :=
  andThen (doAllPresented (cycleEvents c) w.block) fun t =>
    .next (⟨t, txTaken c.rst w.taken txReady w.block⟩, ⟨cycleReject c w.block, txMoved w.taken txReady w.block⟩)

end Sys2Proof.Machine
end

