-- ==== Sys2Proof/Machine/Session.lean ====
section
/-! DEFINITION. The host's operations, each as the block events it amounts to (43_session_commands.md R170 to R188).
What the transport does is an argument: a free input of the environment (R170, D31; log 14). -/

namespace Sys2Proof.Machine

/-- The human-readable status string: the five the source words, an unknown wording for the others (R220, N10; log 12).
The wording of a transport fault may differ by where and why it happened, the model's choice (R142, R220; log 12). -/
def statusString : StatusText → String
  | .atCreation => Config.wording 0
  | .success => Config.wording 1
  | .alreadyOpened => "already opened"
  | .notOpen => "not open"
  | .portNotOpen => "port not open"
  | .openFailed => Config.wording 2
  | .closeFailed => Config.wording 3
  | .transportFault .read .timeout => Config.wording 4
  | .transportFault .read .otherFault => Config.wording 8
  | .transportFault .write .timeout => Config.wording 9
  | .transportFault .write .otherFault => Config.wording 10
  | .checksumError => "checksum error"
  | .operationSettingFailed => "operation setting failed"
  | .emptyResponse => Config.wording 5
  | .overrun => Config.wording 6
  | .other => Config.wording 7

/-- What a host operation returns: the success flag, the status, and the response or body (R188). -/
structure OpResult where
  success : Bool
  status : SessionStatus
  data : Bytes
  deriving DecidableEq, Repr

/-- The transport's part of one transaction (R170, R175; log 13, log 14): the bytes that arrive before the request is
written out, whether `write_bytes` succeeds, the bytes that arrive before the transport gives up reading, and why it gives up, if
it does (42_frame_parse.md R142). -/
structure Exchange where
  early : Bytes
  writeOk : Bool
  response : Bytes
  cause : FaultCause
  deriving DecidableEq, Repr

/-- The success status of a host operation (R220). -/
def okStatus : SessionStatus := ⟨.stOk, .success⟩

/-- The session's status replaced. -/
def setSessionStatus (st : SessionStatus) (s : State) : State := { s with session := { s.session with status := st } }

/-- `Open`, with the outcome of the transport's `open` (R173). -/
def openSession (transportOk : Bool) (s : State) : Host.Outcome (OpResult × State) Fault Refusal :=
  if s.session.isOpen then
    let st : SessionStatus := ⟨statusOfCode Config.alreadyOpenedCode, .alreadyOpened⟩
    .next (⟨false, st, []⟩, setSessionStatus st s)
  else if transportOk then
    .next (⟨true, okStatus, []⟩, { s with session := { s.session with isOpen := true, status := okStatus } })
  else
    let st : SessionStatus := ⟨.stPortUnavailable, .openFailed⟩
    .next (⟨false, st, []⟩, setSessionStatus st s)

/-- `Close`, with the outcome of the transport's `close`: closed all the same when that fails (R174, D31). -/
def closeSession (transportOk : Bool) (s : State) : Host.Outcome (OpResult × State) Fault Refusal :=
  if s.session.isOpen then
    let st : SessionStatus := if transportOk then okStatus else ⟨.stTransportFault, .closeFailed⟩
    .next (⟨transportOk, st, []⟩, { s with session := { s.session with isOpen := false, status := st } })
  else .next (⟨false, ⟨statusOfCode Config.notOpenCode, .notOpen⟩, []⟩, s)

/-- The line read of step 4: one `FP_BYTE` per byte until `rx_done`; if the transport gives up first, `FP_ABORT` (R175). -/
def receiveLine : Bytes → State → Host.Outcome State Fault Refusal
  | [], s => if rxDone s then .next s else exec .fpAbort s
  | b :: bs, s => if rxDone s then .next s else andThen (exec (.fpByte b) s) (receiveLine bs)

/-- The session status of a finished line read, by what FP latched and why the transport gave up, if it did (R179). -/
def transmitStatus (cause : FaultCause) : Status → SessionStatus
  | .stOk => okStatus
  | .stChecksumMismatch => okStatus
  | .stEmptyResponse => ⟨.stEmptyResponse, .emptyResponse⟩
  | .stTransportFault => ⟨.stTransportFault, .transportFault .read cause⟩
  | .stOverrun => ⟨.stOverrun, .overrun⟩
  | .stNone => ⟨.stNone, .other⟩
  | .stPortUnavailable => ⟨.stPortUnavailable, .other⟩
  | .stAckMismatch => ⟨.stAckMismatch, .other⟩

/-- The session status of a failed `write_bytes` (R175 step 3). -/
def writeFaultStatus (cause : FaultCause) : SessionStatus := ⟨.stTransportFault, .transportFault .write cause⟩

/-- The received text of step 5: the line as FP latched it, "which is the empty sequence after a fault" (R175, D22 (d)),
also where a line was latched before the write failed. -/
def receivedText (st : SessionStatus) (line : Bytes) : Bytes := if st.code = .stTransportFault then [] else line

/-- Step 5 and the result: the two texts are recorded "regardless of outcome", the response of a success is the latched
line (R175, R178, R179). -/
def finishTransmit (frame : Bytes) (st : SessionStatus) (s : State) : OpResult × State :=
  let ok := st.code == .stOk
  (⟨ok, st, if ok then s.rxLine else []⟩,
    { s with session := { s.session with lastTx := frame, lastRx := receivedText st s.rxLine, status := st } })

/-- `transmit(signal_code, param_a, param_b)`: the five steps (R175, R179). -/
def transmit (code : Pair) (a b : Bytes) (x : Exchange) (s : State) : Host.Outcome (OpResult × State) Fault Refusal :=
  if s.session.isOpen then
    let addr := s.session.address
    let frame := buildRequest addr code a b
    andThen (execAll (.fpClr :: (rxSeqEvents x.early ++ buildEvents addr code a b)) s) fun s1 =>
      if x.writeOk then
        andThen (receiveLine x.response s1) fun s2 =>
          .next (finishTransmit frame (transmitStatus x.cause s2.rxStatus) s2)
      else
        andThen (exec .fpAbort s1) fun s2 => .next (finishTransmit frame (writeFaultStatus x.cause) s2)
  else
    let st : SessionStatus := ⟨.stPortUnavailable, .portNotOpen⟩
    .next (⟨false, st, []⟩, setSessionStatus st s)

/-- What `read_register` does with a finished transaction: nothing to a failed one; else verify the response and strip
its checksum, or report "checksum error" (R180 steps 2 to 5). -/
def finishRead (rs : OpResult × State) : OpResult × State :=
  if rs.1.success then
    if verify rs.1.data then (⟨true, rs.1.status, bodyOf rs.1.data⟩, rs.2)
    else (⟨false, ⟨.stChecksumMismatch, .checksumError⟩, []⟩, setSessionStatus ⟨.stChecksumMismatch, .checksumError⟩ rs.2)
  else rs

/-- `read_register`: verify the response and strip its checksum (R180). -/
def readRegister (code : Pair) (a b : Bytes) (x : Exchange) (s : State) :
    Host.Outcome (OpResult × State) Fault Refusal :=
  andThen (transmit code a b x s) fun rs => .next (finishRead rs)

/-- The typed read operations, one per read family (R181). -/
def getFamily (f : Config.ReadFamily) (x : Exchange) (s : State) : Host.Outcome (OpResult × State) Fault Refusal :=
  readRegister (Config.readCode f) (Config.readParams f).1 (Config.readParams f).2 x s

/-- The session status of a checked acknowledgement, by what `ACK_CHK` left (R183, D22 (f)). The line was read, so only
the first three can stand (log 26). -/
def ackSessionStatus : Status → SessionStatus
  | .stOk => okStatus
  | .stAckMismatch => ⟨.stAckMismatch, .operationSettingFailed⟩
  | .stChecksumMismatch => ⟨.stChecksumMismatch, .checksumError⟩
  | .stEmptyResponse => ⟨.stEmptyResponse, .emptyResponse⟩
  | .stTransportFault => ⟨.stTransportFault, .other⟩
  | .stOverrun => ⟨.stOverrun, .overrun⟩
  | .stNone => ⟨.stNone, .other⟩
  | .stPortUnavailable => ⟨.stPortUnavailable, .other⟩

/-- `set_operation_mode(mode)`, the strong acknowledgement: after the transaction `ACK_CHK "53", mode` (R183). -/
def setOperationMode (mode : Pair) (x : Exchange) (s : State) : Host.Outcome (OpResult × State) Fault Refusal :=
  let code := Config.writeCode .setOperation
  andThen (transmit code (Config.payloadOpMode mode).1 (Config.payloadOpMode mode).2 x s) fun rs =>
    if rs.1.success then
      andThen (exec (.ackChk code mode) rs.2) fun s1 =>
        let st := ackSessionStatus s1.rxStatus
        .next (⟨s1.ackOk, st, []⟩, setSessionStatus st s1)
    else .next rs

/-- `set_const_value(temp, slope)`: success is `transmit` succeeding and nothing else (R184). -/
def setConstValue (temp slope : Bytes) (x : Exchange) (s : State) : Host.Outcome (OpResult × State) Fault Refusal :=
  transmit (Config.writeCode .setConstValue) (Config.payloadConst temp slope).1 (Config.payloadConst temp slope).2 x s

/-- `set_run_mode_init`: fixed payload, weak acknowledgement (R185). -/
def setRunModeInit (x : Exchange) (s : State) : Host.Outcome (OpResult × State) Fault Refusal :=
  transmit Config.runModeInitCode Config.payloadRunInit.1 Config.payloadRunInit.2 x s

/-- `set_step`: weak acknowledgement; its arguments are OPEN (R186; log 15). -/
def setStep (args : List Bytes) (x : Exchange) (s : State) : Host.Outcome (OpResult × State) Fault Refusal :=
  transmit (Config.writeCode .setStep) (Config.payloadStep args).1 (Config.payloadStep args).2 x s

end Sys2Proof.Machine
end

