-- ==== Sys2Proof/Safety.lean ====
section
/-! DEFINITION. What claims are stated in: the invariant of the reachable states (10_state.md R26), the shape of the
transmit trace (41_frame_build.md R116), the end of a run (70_reset_and_hazards.md R253), the host contract as a monitor
(R260 to R264), and equality of block states. -/

namespace Sys2Proof.Safety

open Sys2Proof.Machine

/-- The checksum of the last of some complete frames, 0x00 if there is none (R13: `tx_acc` in `FB_IDLE`). -/
def lastFcs (frames : List Bytes) : Byte :=
  match frames.getLast? with
  | none => 0x00#8
  | some f => xorFold (slice f 0 (f.length - 4))

/-- The transmit trace and its checksum (R13, R26 (ix), R116): complete well-formed frames, then exactly in `FB_PARAM`
one incomplete frame whose bytes `tx_acc` folds. -/
def TxShape (s : State) : Prop :=
  ∃ frames : List Bytes, (∀ f ∈ frames, wellFormedFrame f = true) ∧
    match s.fbState with
    | .idle => s.txOut = frames.flatten ∧ s.txAcc = lastFcs frames
    | .param => ∃ (addr sig : Pair) (p : Bytes), s.txOut = frames.flatten ++ (frameHead addr sig ++ p) ∧
        s.txAcc = xorFold (frameHead addr sig ++ p)

/-- The invariant of the reachable states, item by item (R26), with the bound of R17, the rule of R18 that the block never
writes `ST_PORT_UNAVAILABLE`, and the shape of the trace (R116). -/
structure Inv (s : State) : Prop where
  /-- R26 (i). -/
  bufWithinCap : ∀ n, s.params.rxCap = .finite n → s.rxBuf.length ≤ n
  /-- R17: a line has at most `RX_CAP - 1` bytes. -/
  lineWithinCap : ∀ n, s.params.rxCap = .finite n → s.rxLine.length ≤ n - 1
  /-- R26 (ii). -/
  doneBufEmpty : s.fpState = .done → s.rxBuf = []
  /-- R26 (iii). -/
  collectCleared : s.fpState = .collect → s.rxLine = [] ∧ s.rxStatus = .stNone ∧ s.ackOk = false
  /-- R26 (iv). -/
  doneHasStatus : s.fpState = .done → s.rxStatus ≠ .stNone
  /-- R26 (v). -/
  okVerified : s.rxStatus = .stOk → verify s.rxLine = true ∧ 2 ≤ s.rxLine.length
  /-- R26 (vi). -/
  failedLineEmpty : s.rxStatus = .stTransportFault ∨ s.rxStatus = .stOverrun ∨ s.rxStatus = .stEmptyResponse →
    s.rxLine = []
  /-- R26 (vii). -/
  ackMeansOk : s.ackOk = true → s.rxStatus = .stOk
  /-- R26 (viii). -/
  mismatchVerified : s.rxStatus = .stAckMismatch → verify s.rxLine = true ∧ s.ackOk = false
  /-- R18: the block never writes `ST_PORT_UNAVAILABLE`. -/
  portStatusNever : s.rxStatus ≠ .stPortUnavailable
  /-- R26 (x), the buffer. -/
  bufNoTerminator : hasTerminator s.rxBuf = false
  /-- R26 (x), the line. -/
  lineNoTerminator : hasTerminator s.rxLine = false
  /-- R26 (ix), R116. -/
  txShape : TxShape s

/-- Quiescent: no frame half built (R253). -/
def quiescent (s : State) : Bool := s.fbState == .idle

/-- The transaction begun by the latest `FP_CLR` is complete (R253). -/
def transactionComplete (s : State) : Bool := s.fpState == .done

/-- Equality of everything but the step output `cmd_reject`, which is no state (R21). -/
def SameState (s t : State) : Prop := { s with cmdReject := false } = { t with cmdReject := false }

/-- The state of another unit or of nobody that an event of the given unit leaves alone (20_memory.md R49). -/
def sameOutside (u : Hw) (s t : State) : Prop :=
  (u ≠ .csg → t.csAcc = s.csAcc) ∧
  (u ≠ .fb → t.fbState = s.fbState ∧ t.txAcc = s.txAcc ∧ t.txOut = s.txOut) ∧
  (u ≠ .fp → t.fpState = s.fpState ∧ t.rxBuf = s.rxBuf ∧ t.rxLine = s.rxLine ∧ t.rxStatus = s.rxStatus ∧
    t.ackOk = s.ackOk)

/-- Where a well-behaved host stands in its transaction (R176, R260, R261, R262). -/
inductive HostPhase where
  /-- No transaction is open, and no `FP_CLR` has been sent since the run began or `RESET`. -/
  | between
  /-- `FP_CLR` has been sent, the request not yet begun (R261). That the `FP_CLR` alone opens no transaction, so that
  another may follow it, is the model's choice (R173, R176, R260; log 30). -/
  | cleared
  /-- The request is being built (R262). -/
  | building
  /-- The request is built; the response is awaited until `rx_done` (R260). -/
  | awaiting
  deriving DecidableEq, Repr

/-- The run may end here: no frame is half built, and a request that was sent has its result. A run that ends otherwise is a
violation of the host contract, though no fault of the block (R253). -/
def contractEnds (ph : HostPhase) (s : State) : Bool := quiescent s && (ph != .awaiting || transactionComplete s)

/-- What a host that keeps to the contract may send in a phase: clear before sending (R261), finish every frame (R262), one
transaction at a time (R176, R260), `ACK_CHK` only on a result (R264); received bytes, the checksum generator and `NOP` at
any time. `RESET` leaves no frame open (R262), and it stands only where a run may end, which is the model's reading
(R176, R253; log 24). A further `FP_CLR` before the request is begun is no breach, the model's choice (log 30). -/
def contractAllows (ph : HostPhase) (s : State) : Instr → Bool
  | .nop => true
  | .csClr => true
  | .csUpd _ => true
  | .fbStart _ _ => ph == .cleared
  | .fbParam _ => ph == .building
  | .fbEnd => ph == .building
  | .fpClr => ph == .between || ph == .cleared || (ph == .awaiting && rxDone s)
  | .fpAbort => ph == .awaiting
  | .ackChk _ _ => rxDone s
  | .reserved9 => false
  | .reservedA => false
  | .reservedB => false
  | .reservedC => false
  | .reservedD => false
  | .reservedE => false
  | .reservedF => false
  | .fpByte _ => true
  | .reset => contractEnds ph s

/-- The phase after an event. -/
def contractNext (ph : HostPhase) : Instr → HostPhase
  | .nop => ph
  | .csClr => ph
  | .csUpd _ => ph
  | .fbStart _ _ => .building
  | .fbParam _ => ph
  | .fbEnd => .awaiting
  | .fpClr => .cleared
  | .fpAbort => ph
  | .ackChk _ _ => ph
  | .reserved9 => ph
  | .reservedA => ph
  | .reservedB => ph
  | .reservedC => ph
  | .reservedD => ph
  | .reservedE => ph
  | .reservedF => ph
  | .fpByte _ => ph
  | .reset => .between

/-- The host keeps to the contract along a sequence of events, so far: nothing is asked yet of where the run ends. -/
def contractSoFar : HostPhase → State → List Instr → Bool
  | _, _, [] => true
  | ph, s, i :: is =>
    contractAllows ph s i &&
      match exec i s with
      | .next t => contractSoFar (contractNext ph i) t is
      | .fault _ => false
      | .refused _ => false

/-- Where a host stands after a sequence of events. -/
def phaseAfter (ph : HostPhase) (is : List Instr) : HostPhase := is.foldl contractNext ph

/-- The host keeps to the contract in a whole run: along it, and where it ends (R253, R260 to R264; log 24). -/
def contractKept (ph : HostPhase) (s : State) (is : List Instr) : Bool :=
  contractSoFar ph s is &&
    match execAll is s with
    | .next t => contractEnds (phaseAfter ph is) t
    | .fault _ => false
    | .refused _ => false

/-- No event of the sequence is rejected (R76). -/
def noneRejected : State → List Instr → Bool
  | _, [] => true
  | s, i :: is =>
    match exec i s with
    | .next t => !t.cmdReject && noneRejected t is
    | .fault _ => false
    | .refused _ => false

end Sys2Proof.Safety
end

