-- ==== Sys2Proof/Certificates/Slice0/Obligations.lean ====
section
/-! DEFINITION. The statements about the frame codec, each with the rule of spec/ it comes from. -/

open Sys2Proof Sys2Proof.Machine Sys2Proof.Safety

/-! ### Presenting, decoding and stepping -/

/-- A step takes the next waiting presentation and does exactly the event it decodes to on the rest of the input. The
input list is the model's own (log 1). -/
def Obligations.StepRunsTheDecodedEvent : Prop :=
  ∀ (s : State) (r : Raw) (rest : List Raw) (i : Instr), s.pending = r :: rest → decode r = .ok i →
    i.wellFormed = true → step s = exec i { s with pending := rest }

/-- When a step stops: no event is waiting, or the presentation is a low `rst` (the model's choices, logs 2 and 3). -/
def Obligations.StepStopsOnlyWithoutAnEvent : Prop :=
  ∀ s : State,
    (s.pending = [] → step s = .fault .endOfInput) ∧
    (∀ rest, s.pending = .pin false :: rest → step s = .refused (.undecodable .rstLow)) ∧
    (∀ r rest, s.pending = r :: rest → r ≠ .pin false → ∃ t, step s = .next t)

/-- The command words, the received byte and the reset pin of 95_test_vectors.md V73 to V83. -/
def Obligations.WrittenOutWordsDecode : Prop :=
  decode (.cmd 0x000000000#36) = .ok .nop ∧
  decode (.cmd 0x100000000#36) = .ok .csClr ∧
  decode (.cmd 0x200000040#36) = .ok (.csUpd 0x40#8) ∧
  decode (.cmd 0x330313533#36) = .ok (.fbStart ⟨0x30#8, 0x31#8⟩ ⟨0x35#8, 0x33#8⟩) ∧
  decode (.cmd 0x400000031#36) = .ok (.fbParam 0x31#8) ∧
  decode (.cmd 0x500000000#36) = .ok .fbEnd ∧
  decode (.cmd 0x600000000#36) = .ok .fpClr ∧
  decode (.cmd 0x700000000#36) = .ok .fpAbort ∧
  decode (.cmd 0x835333032#36) = .ok (.ackChk ⟨0x35#8, 0x33#8⟩ ⟨0x30#8, 0x32#8⟩) ∧
  decode (.cmd 0x900000000#36) = .ok .reserved9 ∧
  decode (.cmd 0xFFFFFFFFF#36) = .ok .reservedF ∧
  decode (.rxb 0x40#8) = .ok (.fpByte 0x40#8) ∧
  decode (.pin true) = .ok .reset

/-- Decoding inverts encoding for every event, and for a command it does so whatever the ignored operand bits hold
(R72). -/
def Obligations.DecodeInvertsEncode : Prop :=
  ∀ i : Instr, i.wellFormed = true →
    decode (encode i) = .ok i ∧
    ∀ w w' : BitVec 36, encode i = .cmd w → w' &&& operandMask i = w &&& operandMask i → decode (.cmd w') = .ok i

/-- Every 36-bit word decodes, and encoding what it decodes to gives back its opcode and every operand bit R72 names. -/
def Obligations.EveryCommandWordDecodes : Prop :=
  ∀ w : BitVec 36, ∃ i : Instr, decode (.cmd w) = .ok i ∧ i.wellFormed = true ∧
    encode i = .cmd (w &&& operandMask i)

/-- Stepping through the encodings of a list of events is doing the events in order. -/
def Obligations.SteppingEncodedEventsIsDoingThem : Prop :=
  ∀ (is : List Instr) (rest : List Raw) (s : State),
    stepN is.length { s with pending := is.map encode ++ rest } = execAll is { s with pending := rest }

/-- Every event completes in every state (43_session_commands.md R188: no fault escapes; RESERVED_9 to RESERVED_F
complete by being rejected). -/
def Obligations.EveryEventCompletes : Prop :=
  ∀ (i : Instr) (s : State), ∃ t, exec i s = .next t

/-- Rejected commands (R76): the four cases, what a rejected command does, and that nothing else is rejected. -/
def Obligations.RejectedCommandsChangeNothing : Prop :=
  ∀ (i : Instr) (s : State),
    let bad : Prop :=
      (∃ (op : BitVec 4) (d : BitVec 32), 9 ≤ op.toNat ∧ decode (.cmd (cmdWord op d)) = .ok i) ∨
      ((∃ addr sig, i = .fbStart addr sig) ∧ s.fbState = .param) ∨
      (((∃ b, i = .fbParam b) ∨ i = .fbEnd) ∧ s.fbState = .idle) ∨
      ((∃ sig mode, i = .ackChk sig mode) ∧ s.fpState = .collect)
    (bad → exec i s = .next { s with cmdReject := true }) ∧
    (¬ bad → ∃ t, exec i s = .next t ∧ t.cmdReject = false)

/-- The seven reserved opcodes: each word with such an opcode is its row's event, and the event changes nothing and
raises `cmd_reject` (R76 (a)). -/
def Obligations.ReservedOpcodesAreRejected : Prop :=
  ∀ (d : BitVec 32) (s : State),
    (decode (.cmd (cmdWord 0x9#4 d)) = .ok .reserved9 ∧ exec .reserved9 s = .next { s with cmdReject := true }) ∧
    (decode (.cmd (cmdWord 0xA#4 d)) = .ok .reservedA ∧ exec .reservedA s = .next { s with cmdReject := true }) ∧
    (decode (.cmd (cmdWord 0xB#4 d)) = .ok .reservedB ∧ exec .reservedB s = .next { s with cmdReject := true }) ∧
    (decode (.cmd (cmdWord 0xC#4 d)) = .ok .reservedC ∧ exec .reservedC s = .next { s with cmdReject := true }) ∧
    (decode (.cmd (cmdWord 0xD#4 d)) = .ok .reservedD ∧ exec .reservedD s = .next { s with cmdReject := true }) ∧
    (decode (.cmd (cmdWord 0xE#4 d)) = .ok .reservedE ∧ exec .reservedE s = .next { s with cmdReject := true }) ∧
    (decode (.cmd (cmdWord 0xF#4 d)) = .ok .reservedF ∧ exec .reservedF s = .next { s with cmdReject := true })

/-! ### The checksum and the checksum generator -/

/-- XORFOLD by its two equations (R90): 0x00 for the empty sequence, one more byte folded in at the end. -/
def Obligations.XorFoldIsTheRunningXor : Prop :=
  xorFold [] = 0x00#8 ∧ ∀ (s : Bytes) (b : Byte), xorFold (s ++ [b]) = xorFold s ^^^ b

/-- The laws of the checksum (R91 (c) to (g)): concatenation, order, the raw byte folded back, one changed byte, two
changes of equal difference, an inserted pair of equal bytes. -/
def Obligations.XorFoldLaws : Prop :=
  (∀ s t : Bytes, xorFold (s ++ t) = xorFold s ^^^ xorFold t) ∧
  (∀ s t : Bytes, s.Perm t → xorFold s = xorFold t) ∧
  (∀ s : Bytes, xorFold (s ++ [xorFold s]) = 0x00#8) ∧
  (∀ (s : Bytes) (k : Nat) (old new : Byte), s[k]? = some old →
    xorFold (s.set k new) = xorFold s ^^^ old ^^^ new ∧ (new ≠ old → xorFold (s.set k new) ≠ xorFold s)) ∧
  (∀ (s : Bytes) (j k : Nat) (a b diff : Byte), j ≠ k → s[j]? = some a → s[k]? = some b →
    xorFold ((s.set j (a ^^^ diff)).set k (b ^^^ diff)) = xorFold s) ∧
  (∀ (s t u : Bytes) (b : Byte), xorFold (s ++ [b] ++ t ++ [b] ++ u) = xorFold (s ++ t ++ u))

/-- The hex digits (R92, R93): `0x30 + n` up to 9 and `0x37 + n` above, high nibble first, HEX2 injective, and the field
comparison is equality with HEX2. -/
def Obligations.HexDigitsAndFieldComparison : Prop :=
  (∀ n : BitVec 4, hexDigit n = BitVec.ofNat 8 (if n.toNat ≤ 9 then 0x30 + n.toNat else 0x37 + n.toNat)) ∧
  (∀ n : BitVec 4, (0x30 ≤ (hexDigit n).toNat ∧ (hexDigit n).toNat ≤ 0x39) ∨
    (0x41 ≤ (hexDigit n).toNat ∧ (hexDigit n).toNat ≤ 0x46)) ∧
  (∀ v : Byte, hexHi v = hexDigit (v.extractLsb' 4 4) ∧ hexLo v = hexDigit (v.extractLsb' 0 4) ∧
    hex2 v = [hexHi v, hexLo v]) ∧
  (∀ v w : Byte, hex2 v = hex2 w ↔ v = w) ∧
  (∀ (field : Bytes) (v : Byte), fcsEq field v = true ↔
    (field.length = 2 ∧ field[0]? = some (hexHi v) ∧ field[1]? = some (hexLo v)))

/-- NOP: any word of opcode 0 is NOP, and NOP leaves every state as it is and is not rejected (R97). -/
def Obligations.NopLeavesEveryState : Prop :=
  ∀ (d : BitVec 32) (s : State),
    decode (.cmd (cmdWord 0x0#4 d)) = .ok .nop ∧ exec .nop s = .next { s with cmdReject := false }

/-- CS_CLR clears `cs_acc` whatever FB and FP do, and nothing else; doing it twice is doing it once (R95). -/
def Obligations.CsClrClearsTheAccumulator : Prop :=
  ∀ (d : BitVec 32) (s : State),
    decode (.cmd (cmdWord 0x1#4 d)) = .ok .csClr ∧
    exec .csClr s = .next { s with csAcc := 0x00#8, cmdReject := false } ∧
    csHex { s with csAcc := 0x00#8, cmdReject := false } = [0x30#8, 0x30#8] ∧ xorFold [] = 0x00#8 ∧
    execAll [.csClr, .csClr] s = exec .csClr s

/-- CS_UPD folds its byte into `cs_acc` and does nothing else; the operand is `cmd_data[7:0]`; 0 changes nothing, the
accumulator's own value gives 0, the same byte twice restores it (R96). -/
def Obligations.CsUpdFoldsItsByte : Prop :=
  ∀ (d : BitVec 32) (b : Byte) (s : State),
    decode (.cmd (cmdWord 0x2#4 d)) = .ok (.csUpd (d.extractLsb' 0 8)) ∧
    exec (.csUpd b) s = .next { s with csAcc := s.csAcc ^^^ b, cmdReject := false } ∧
    exec (.csUpd 0x00#8) s = .next { s with cmdReject := false } ∧
    exec (.csUpd s.csAcc) s = .next { s with csAcc := 0x00#8, cmdReject := false } ∧
    execAll [.csUpd b, .csUpd b] s = .next { s with cmdReject := false }

/-- CSUM is correct with events of the other units interleaved freely (R98): the accumulator ends as the checksum of
the bytes, or from a state with `cs_acc = c` as `c` folded with it. -/
def Obligations.CsumComputesTheChecksum : Prop :=
  ∀ (is : List Instr) (bs : Bytes) (s : State),
    (unitEvents .csg is = csumEvents bs →
      ∃ t, execAll is s = .next t ∧ csValue t = xorFold bs ∧ csHex t = hex2 (xorFold bs)) ∧
    (unitEvents .csg is = bs.map .csUpd → ∃ t, execAll is s = .next t ∧ t.csAcc = s.csAcc ^^^ xorFold bs)

/-! ### The frame builder -/

/-- FB_START (R112): accepted when idle, with the five bytes emitted, `tx_acc` restarted and `fb_busy` 1; rejected in
`FB_PARAM`. -/
def Obligations.FbStartOpensAFrame : Prop :=
  ∀ (addr sig : Pair) (s : State),
    decode (.cmd (cmdWord 0x3#4 (addr.c0 ++ addr.c1 ++ sig.c0 ++ sig.c1))) = .ok (.fbStart addr sig) ∧
    (s.fbState = .idle →
      exec (.fbStart addr sig) s = .next { s with
        txOut := s.txOut ++ [0x40#8, addr.c0, addr.c1, sig.c0, sig.c1],
        txAcc := 0x40#8 ^^^ addr.c0 ^^^ addr.c1 ^^^ sig.c0 ^^^ sig.c1, fbState := .param, cmdReject := false }) ∧
    (s.fbState = .param → exec (.fbStart addr sig) s = .next { s with cmdReject := true }) ∧
    (∀ t, s.fbState = .idle → exec (.fbStart addr sig) s = .next t → fbBusy t = true)

/-- FB_PARAM (R113): in `FB_PARAM` its byte, whatever it is, is emitted and folded; rejected when idle. -/
def Obligations.FbParamEmitsItsByte : Prop :=
  ∀ (d : BitVec 32) (b : Byte) (s : State),
    decode (.cmd (cmdWord 0x4#4 d)) = .ok (.fbParam (d.extractLsb' 0 8)) ∧
    (s.fbState = .param →
      exec (.fbParam b) s = .next { s with txOut := s.txOut ++ [b], txAcc := s.txAcc ^^^ b, cmdReject := false }) ∧
    (s.fbState = .idle → exec (.fbParam b) s = .next { s with cmdReject := true })

/-- FB_END (R114): in `FB_PARAM` the two digits of `tx_acc` and the terminator are emitted, `tx_acc` keeps its value,
`fb_busy` becomes 0; rejected when idle. -/
def Obligations.FbEndClosesTheFrame : Prop :=
  ∀ (d : BitVec 32) (s : State),
    decode (.cmd (cmdWord 0x5#4 d)) = .ok .fbEnd ∧
    (s.fbState = .param →
      exec .fbEnd s = .next { s with
        txOut := s.txOut ++ [hexHi s.txAcc, hexLo s.txAcc, 0x2A#8, 0x0D#8], fbState := .idle, cmdReject := false }) ∧
    (s.fbState = .idle → exec .fbEnd s = .next { s with cmdReject := true }) ∧
    (∀ t, exec .fbEnd s = .next t → fbBusy t = false ∧ fbFcs t = fbFcs s)

/-- The built request (R110, R111): the exact concatenation, its checksum digits and the terminator; its length; only
`param_a ++ param_b` matters; it is well formed. -/
def Obligations.BuildRequestIsWellFormed : Prop :=
  ∀ (addr sig : Pair) (a b : Bytes),
    (∀ body : Bytes, body = [0x40#8] ++ addr.bytes ++ sig.bytes ++ a ++ b →
      buildRequest addr sig a b = body ++ hex2 (xorFold body) ++ [0x2A#8, 0x0D#8]) ∧
    (buildRequest addr sig a b).length = 9 + a.length + b.length ∧
    buildRequest addr sig a b = buildRequest addr sig (a ++ b) [] ∧
    wellFormedFrame (buildRequest addr sig a b) = true

/-- BUILD is correct with events of the other units interleaved freely (R115): the trace grows by the request, FB is
idle again, `tx_acc` is the checksum, and no FB command of the sequence is rejected. -/
def Obligations.BuildEmitsTheRequest : Prop :=
  ∀ (is : List Instr) (addr sig : Pair) (a b : Bytes) (s : State),
    s.fbState = .idle → unitEvents .fb is = buildEvents addr sig a b →
    ∃ t, execAll is s = .next t ∧ t.txOut = s.txOut ++ buildRequest addr sig a b ∧ t.fbState = .idle ∧
      t.txAcc = xorFold ([0x40#8] ++ addr.bytes ++ sig.bytes ++ a ++ b) ∧
      ∀ (before later : List Instr) (i : Instr) (u v : State), is = before ++ i :: later → i.hw = .fb →
        execAll before s = .next u → exec i u = .next v → v.cmdReject = false

/-- The transmit trace is append-only but for RESET, and only the FB events extend it (R14). -/
def Obligations.TransmitTraceOnlyGrows : Prop :=
  ∀ (i : Instr) (s t : State), exec i s = .next t → i ≠ .reset →
    (∃ more, t.txOut = s.txOut ++ more) ∧ (i.hw ≠ .fb → t.txOut = s.txOut)

/-- Round trip (R117): the line of a built request verifies; with exactly one body byte changed it does not; the frame
with its terminator still attached never does. -/
def Obligations.BuiltRequestVerifies : Prop :=
  ∀ (addr sig : Pair) (a b : Bytes),
    verify (lineOf (buildRequest addr sig a b)) = true ∧
    (∀ (k : Nat) (old new : Byte), k + 2 < (lineOf (buildRequest addr sig a b)).length →
      (lineOf (buildRequest addr sig a b))[k]? = some old → new ≠ old →
      verify ((lineOf (buildRequest addr sig a b)).set k new) = false) ∧
    verify (buildRequest addr sig a b) = false

/-! ### The frame parser -/

/-- VERIFY (R132): false below two characters; otherwise the last two characters against the digits of the checksum of
all before them; at length 2 true for `"00"` alone; false for a field with a character that is no upper-case digit. -/
def Obligations.VerifyComparesTheLastTwoCharacters : Prop :=
  (∀ line : Bytes, line.length < 2 → verify line = false) ∧
  (∀ (body : Bytes) (f0 f1 : Byte), verify (body ++ [f0, f1]) = true ↔ [f0, f1] = hex2 (xorFold body)) ∧
  (∀ line : Bytes, line.length = 2 → (verify line = true ↔ line = [0x30#8, 0x30#8])) ∧
  (∀ (body : Bytes) (f0 f1 : Byte), (∀ n, f0 ≠ hexDigit n) ∨ (∀ n, f1 ≠ hexDigit n) → verify (body ++ [f0, f1]) = false)

/-- DECODE and the outputs that show it (R133, R134, R135): on a verified line success with the body, else the checksum
failure; `rx_body` is that body, `rx_fcs_ok` tells the case, and the line stays readable. -/
def Obligations.DecodeYieldsTheBody : Prop :=
  ∀ s : State,
    (rxFcsOk s = true → decodeLine s.rxLine = .ok (rxBody s)) ∧
    (rxFcsOk s = false → decodeLine s.rxLine = .error .stChecksumMismatch) ∧
    (∀ (body : Bytes) (f0 f1 : Byte), s.rxLine = body ++ [f0, f1] →
      rxBody s = body ∧ rxFcsCalc s = xorFold body ∧ rxFcsField s = [f0, f1] ∧
      (rxFcsOk s = true ↔ rxFcsField s = hex2 (rxFcsCalc s))) ∧
    (s.rxLine.length < 2 →
      rxBody s = [] ∧ rxFcsCalc s = 0x00#8 ∧ rxFcsField s = [0x00#8, 0x00#8] ∧ rxFcsOk s = false)

/-- The field outputs (R136, R137, R138): the head flag, and address, signal code and payload at their fixed places of a
line of 7 or more bytes, the fillers of a shorter one. -/
def Obligations.FieldOutputsFollowTheLayout : Prop :=
  ∀ s : State,
    (rxHeadOk s = true ↔ s.rxLine[0]? = some 0x40#8) ∧
    (rxFieldsValid s = true ↔ 7 ≤ s.rxLine.length) ∧
    (∀ (h a0 a1 s0 s1 f0 f1 : Byte) (payload : Bytes), s.rxLine = [h, a0, a1, s0, s1] ++ payload ++ [f0, f1] →
      rxAddr s = [a0, a1] ∧ rxSig s = [s0, s1] ∧ rxPayload s = payload ∧ rxLen s = payload.length + 7) ∧
    (s.rxLine.length < 7 → rxAddr s = [0x00#8, 0x00#8] ∧ rxSig s = [0x00#8, 0x00#8] ∧ rxPayload s = [])

/-- FP_BYTE with COMPLETE (R140, R144): dropped in `FP_DONE`; a carriage return after a stored `*` completes the line
with its verdict, before the capacity is looked at; else a full buffer overruns; else the byte is stored. -/
def Obligations.FpByteCollectsCompletesOrOverruns : Prop :=
  ∀ (b : Byte) (s : State),
    decode (.rxb b) = .ok (.fpByte b) ∧
    (s.fpState = .done → exec (.fpByte b) s = .next { s with cmdReject := false }) ∧
    (∀ line, s.fpState = .collect → s.rxBuf = line ++ [0x2A#8] → b = 0x0D#8 →
      exec (.fpByte b) s = .next { s with
        rxBuf := [], rxLine := line, fpState := .done, cmdReject := false,
        rxStatus := if line.length = 0 then .stEmptyResponse
          else if verify line = false then .stChecksumMismatch else .stOk }) ∧
    (s.fpState = .collect → ¬ (b = 0x0D#8 ∧ ∃ line, s.rxBuf = line ++ [0x2A#8]) →
      s.params.rxCap = .finite s.rxBuf.length →
      exec (.fpByte b) s = .next { s with
        rxBuf := [], rxLine := [], rxStatus := .stOverrun, fpState := .done, cmdReject := false }) ∧
    (s.fpState = .collect → ¬ (b = 0x0D#8 ∧ ∃ line, s.rxBuf = line ++ [0x2A#8]) →
      s.params.rxCap ≠ .finite s.rxBuf.length →
      exec (.fpByte b) s = .next { s with rxBuf := s.rxBuf ++ [b], cmdReject := false })

/-- FP_CLR (R141): never rejected, all FP state to its reset values, nothing else touched, all flags 0, idempotent. -/
def Obligations.FpClrForgetsEverythingReceived : Prop :=
  ∀ (d : BitVec 32) (s : State),
    decode (.cmd (cmdWord 0x6#4 d)) = .ok .fpClr ∧
    exec .fpClr s = .next { s with
      rxBuf := [], rxLine := [], rxStatus := .stNone, ackOk := false, fpState := .collect, cmdReject := false } ∧
    (∀ t, exec .fpClr s = .next t →
      rxDone t = false ∧ rxFcsOk t = false ∧ rxHeadOk t = false ∧ rxFieldsValid t = false ∧ t.ackOk = false) ∧
    execAll [.fpClr, .fpClr] s = exec .fpClr s

/-- FP_ABORT (R142): while collecting it discards the bytes and latches the transport fault; a latched result stands;
idempotent, never rejected. -/
def Obligations.FpAbortLatchesATransportFault : Prop :=
  ∀ (d : BitVec 32) (s : State),
    decode (.cmd (cmdWord 0x7#4 d)) = .ok .fpAbort ∧
    (s.fpState = .collect → exec .fpAbort s = .next { s with
      rxBuf := [], rxLine := [], rxStatus := .stTransportFault, fpState := .done, cmdReject := false }) ∧
    (s.fpState = .done → exec .fpAbort s = .next { s with cmdReject := false }) ∧
    (∀ t, exec .fpAbort s = .next t → rxDone t = true) ∧
    execAll [.fpAbort, .fpAbort] s = exec .fpAbort s

/-- ACK_CHK with ACKMATCH (R150, R151): rejected while collecting; on a verified result both echoed fields decide
`ack_ok` and the status; an earlier failure keeps its status and gives `ack_ok` 0. -/
def Obligations.AckChkComparesTheEchoedFields : Prop :=
  ∀ (sig mode : Pair) (s : State),
    let body := if s.rxLine.length < 2 then [] else slice s.rxLine 0 (s.rxLine.length - 2)
    let off := s.params.ackModeOffset
    let isMatch : Prop := 3 + 2 ≤ body.length ∧ slice body 3 (3 + 2) = [sig.c0, sig.c1] ∧
      off + 2 ≤ body.length ∧ slice body off (off + 2) = [mode.c0, mode.c1]
    decode (.cmd (cmdWord 0x8#4 (sig.c0 ++ sig.c1 ++ mode.c0 ++ mode.c1))) = .ok (.ackChk sig mode) ∧
    (s.fpState = .collect → exec (.ackChk sig mode) s = .next { s with cmdReject := true }) ∧
    (s.fpState = .done → s.rxStatus = .stOk ∨ s.rxStatus = .stAckMismatch → isMatch →
      exec (.ackChk sig mode) s = .next { s with ackOk := true, rxStatus := .stOk, cmdReject := false }) ∧
    (s.fpState = .done → s.rxStatus = .stOk ∨ s.rxStatus = .stAckMismatch → ¬ isMatch →
      exec (.ackChk sig mode) s = .next { s with ackOk := false, rxStatus := .stAckMismatch, cmdReject := false }) ∧
    (s.fpState = .done → ¬ (s.rxStatus = .stOk ∨ s.rxStatus = .stAckMismatch) →
      exec (.ackChk sig mode) s = .next { s with ackOk := false, cmdReject := false })

/-- A later ACK_CHK replaces the verdict of an earlier one, whatever the operands (R150: the result is a function of
the latched line and the operands alone). -/
def Obligations.LaterAckChkReplacesTheVerdict : Prop :=
  ∀ (sig mode sig' mode' : Pair) (s : State),
    execAll [.ackChk sig mode, .ackChk sig' mode'] s = exec (.ackChk sig' mode') s

/-- Where SPLITLINE cuts (R131): the least place with `*` directly followed by carriage return; `none` exactly when
there is no such place. -/
def Obligations.SplitLineCutsAtTheFirstTerminator : Prop :=
  ∀ s : Bytes,
    (∀ line rest, splitLine s = some (line, rest) ↔
      ∃ k, s[k]? = some 0x2A#8 ∧ s[k + 1]? = some 0x0D#8 ∧
        (∀ j, j < k → ¬ (s[j]? = some 0x2A#8 ∧ s[j + 1]? = some 0x0D#8)) ∧
        line = slice s 0 k ∧ rest = slice s (k + 2) s.length) ∧
    (splitLine s = none ↔ ∀ k, ¬ (s[k]? = some 0x2A#8 ∧ s[k + 1]? = some 0x0D#8))

/-- FP is SPLITLINE on any stream, for an unbounded buffer (R130, R131, R143): after FP_CLR and any bytes, the line of
the first terminator is latched and all after it dropped, or all bytes are still being collected. -/
def Obligations.ReceivedStreamIsSplitAtItsTerminator : Prop :=
  ∀ (bs : Bytes) (s : State), s.params.rxCap = .unbounded →
    ∃ t, execAll (recvEvents bs) s = .next t ∧
      match splitLine bs with
      | some (line, _) => t.fpState = .done ∧ t.rxLine = line ∧ t.rxBuf = [] ∧ t.ackOk = false ∧
          t.rxStatus = if line = [] then .stEmptyResponse else if verify line then .stOk else .stChecksumMismatch
      | none => t.fpState = .collect ∧ t.rxBuf = bs ∧ t.rxLine = [] ∧ t.rxStatus = .stNone ∧ t.ackOk = false

/-- RECV is correct for any legal capacity the line fits, with events of the other units interleaved freely (R143). -/
def Obligations.RecvLatchesTheLine : Prop :=
  ∀ (is : List Instr) (line : Bytes) (s : State), hasTerminator line = false →
    (∀ cap, s.params.rxCap = .finite cap → line.length + 1 ≤ cap) →
    unitEvents .fp is = recvEvents (line ++ [0x2A#8, 0x0D#8]) →
    ∃ t, execAll is s = .next t ∧ t.fpState = .done ∧ t.rxLine = line ∧ t.rxBuf = [] ∧ t.ackOk = false ∧
      t.rxStatus = if line = [] then .stEmptyResponse else if verify line then .stOk else .stChecksumMismatch

/-- What FB emits FP accepts (R117, R143): a request whose body holds no terminator pair and which fits the buffer,
fed to FP, latches exactly its line with `ST_OK` and shows its address, signal code and parameters. -/
def Obligations.EmittedRequestIsReceivedBack : Prop :=
  ∀ (addr sig : Pair) (a b : Bytes) (s : State),
    hasTerminator ([0x40#8] ++ addr.bytes ++ sig.bytes ++ a ++ b) = false →
    (∀ cap, s.params.rxCap = .finite cap → (lineOf (buildRequest addr sig a b)).length + 1 ≤ cap) →
    ∃ t, execAll (recvEvents (buildRequest addr sig a b)) s = .next t ∧ t.rxStatus = .stOk ∧
      t.rxLine = lineOf (buildRequest addr sig a b) ∧ rxHeadOk t = true ∧ rxAddr t = addr.bytes ∧
      rxSig t = sig.bytes ∧ rxPayload t = a ++ b

/-- The running implementation (R139): with one accumulator over everything stored, the checksum of the protected part
is that accumulator with the `*` and the two field characters folded out again. -/
def Obligations.RunningAccumulatorAgrees : Prop :=
  ∀ (body : Bytes) (f0 f1 : Byte),
    xorFold (body ++ [f0, f1] ++ [0x2A#8]) ^^^ 0x2A#8 ^^^ f0 ^^^ f1 = xorFold body ∧
    (verify (body ++ [f0, f1]) = true ↔
      [f0, f1] = hex2 (xorFold (body ++ [f0, f1] ++ [0x2A#8]) ^^^ 0x2A#8 ^^^ f0 ^^^ f1))

/-- What moves FP between its states and what changes a latched status (R15, R227, R232): only FP_BYTE and FP_ABORT
leave `FP_COLLECT` with a result, only FP_CLR and RESET leave `FP_DONE`, only ACK_CHK changes a latched status, and it
never replaces a failure other than its own kind. -/
def Obligations.OnlyTheNamedEventsMoveFp : Prop :=
  ∀ (i : Instr) (s t : State), exec i s = .next t →
    (s.fpState = .collect → t.fpState = .done → (∃ b, i = .fpByte b) ∨ i = .fpAbort) ∧
    (s.fpState = .done → t.fpState = .collect → i = .fpClr ∨ i = .reset) ∧
    (s.fpState = .done → t.fpState = .done → t.rxLine = s.rxLine ∧
      (t.rxStatus ≠ s.rxStatus → (∃ sig mode, i = .ackChk sig mode) ∧
        (s.rxStatus = .stOk ∧ t.rxStatus = .stAckMismatch ∨ s.rxStatus = .stAckMismatch ∧ t.rxStatus = .stOk)))

/-- Which events are idempotent, an involution, or rejected on direct repetition (R47). -/
def Obligations.RepeatedEvents : Prop :=
  ∀ (s : State) (i : Instr) (b : Byte) (addr sig : Pair),
    (i = .nop ∨ i = .csClr ∨ i = .fpClr ∨ i = .fpAbort ∨ i = .reset ∨ (∃ g m, i = .ackChk g m) →
      execAll [i, i] s = exec i s) ∧
    execAll [.csUpd b, .csUpd b] s = .next { s with cmdReject := false } ∧
    (∀ t, exec (.fbStart addr sig) s = .next t → exec (.fbStart addr sig) t = .next { t with cmdReject := true }) ∧
    (∀ t, exec .fbEnd s = .next t → exec .fbEnd t = .next { t with cmdReject := true })

/-- Without FP_CLR a stale result stays (R261, R142): in `FP_DONE` a whole response and a late FP_ABORT change nothing. -/
def Obligations.StaleResultStaysWithoutClear : Prop :=
  ∀ (bs : Bytes) (s : State), s.fpState = .done →
    execAll (rxSeqEvents bs ++ [.fpAbort]) s = .next { s with cmdReject := false }

/-! ### Reset, the invariant, and what events leave alone -/

/-- RESET (R250): never rejected, every register of the block at its reset value, every flag 0, the host's session
untouched, idempotent, and alone in its cycle. -/
def Obligations.ResetEventRestoresEveryRegister : Prop :=
  ∀ (s : State) (c : Cycle),
    decode (.pin true) = .ok .reset ∧
    exec .reset s = .next { s with
      csAcc := 0x00#8, fbState := .idle, txAcc := 0x00#8, txOut := [], fpState := .collect, rxBuf := [], rxLine := [],
      rxStatus := .stNone, ackOk := false, cmdReject := false } ∧
    (∀ t, exec .reset s = .next t → rxDone t = false ∧ rxFcsOk t = false ∧ rxHeadOk t = false ∧
      rxFieldsValid t = false ∧ t.ackOk = false ∧ fbBusy t = false) ∧
    execAll [.reset, .reset] s = exec .reset s ∧
    (c.rst = true → cycleEvents c = [.pin true])

/-- The reset values of the block and the creation values of the session (R28). -/
def Obligations.ResetStateValues : Prop :=
  State.reset.csAcc = 0x00#8 ∧ State.reset.fbState = .idle ∧ State.reset.txAcc = 0x00#8 ∧ State.reset.txOut = [] ∧
  State.reset.fpState = .collect ∧ State.reset.rxBuf = [] ∧ State.reset.rxLine = [] ∧
  State.reset.rxStatus = .stNone ∧ State.reset.ackOk = false ∧ State.reset.session.isOpen = false ∧
  State.reset.session.lastTx = [] ∧ State.reset.session.lastRx = [] ∧ State.reset.session.status.code = .stNone

/-- The invariant of the reachable states holds after reset, for any implementation's parameters (R26). -/
def Obligations.ResetSatisfiesInv : Prop :=
  Inv State.reset

/-- Every step keeps the invariant of R26 with the shape of the transmit trace of R116, from every state that has it. -/
def Obligations.StepKeepsInv : Prop :=
  ∀ s t : State, Inv s → step s = .next t → Inv t

/-- The units do not disturb one another (R49): an event leaves the state of every other unit, the parameters, the
session and the input still to come as they were. RESET alone belongs to all units. -/
def Obligations.EventsLeaveOtherUnitsAlone : Prop :=
  ∀ (i : Instr) (s t : State), exec i s = .next t →
    (i.hw ≠ .all → sameOutside i.hw s t) ∧
    t.params = s.params ∧ t.session = s.session ∧ t.pending = s.pending

/-- Two adjacent events of different units may be exchanged (R49); `cmd_reject` alone, no state, tells which came last. -/
def Obligations.EventsOfDifferentUnitsCommute : Prop :=
  ∀ (i j : Instr) (s : State), i.hw ≠ j.hw → i.hw ≠ .all → j.hw ≠ .all →
    ∃ t u, execAll [i, j] s = .next t ∧ execAll [j, i] s = .next u ∧ SameState t u

/-- A host read changes nothing and is refused outside the line (R44); events that are not FP's leave every read as it
was. -/
def Obligations.MemReadStaysInsideTheLine : Prop :=
  ∀ (k n : Nat) (s : State),
    (k + n ≤ s.rxLine.length → memRead k n s = .next (slice s.rxLine k (k + n))) ∧
    (s.rxLine.length < k + n → memRead k n s = .refused (.readOutsideLine k n)) ∧
    (∀ (i : Instr) (t : State), exec i s = .next t → i.hw ≠ .fp → i.hw ≠ .all → memRead k n t = memRead k n s)

/-- The status codes (R220): every status has its number, every 3-bit value is the code of one status. -/
def Obligations.StatusCodesAreTheTable : Prop :=
  [Status.stNone, .stOk, .stPortUnavailable, .stTransportFault, .stChecksumMismatch, .stAckMismatch, .stEmptyResponse,
    .stOverrun].map statusCode = [0#3, 1#3, 2#3, 3#3, 4#3, 5#3, 6#3, 7#3] ∧
  (∀ st : Status, statusOfCode (statusCode st) = st) ∧ (∀ c : BitVec 3, statusCode (statusOfCode c) = c)

/-! ### The pins -/

/-- The events of one cycle (R74): RESET alone when `rst` is high, else the command that is valid and ready, then the
received byte. -/
def Obligations.CycleOrdersCommandBeforeByte : Prop :=
  ∀ c : Cycle,
    (c.rst = true → cycleEvents c = [.pin true]) ∧
    (c.rst = false → c.cmdValid = true → c.cmdReady = true → c.rxValid = true →
      cycleEvents c = [.cmd (cmdWord c.cmdOp c.cmdData), .rxb c.rxData]) ∧
    (c.rst = false → c.cmdValid = true → c.cmdReady = true → c.rxValid = false →
      cycleEvents c = [.cmd (cmdWord c.cmdOp c.cmdData)]) ∧
    (c.rst = false → ¬ (c.cmdValid = true ∧ c.cmdReady = true) → c.rxValid = true → cycleEvents c = [.rxb c.rxData]) ∧
    (c.rst = false → ¬ (c.cmdValid = true ∧ c.cmdReady = true) → c.rxValid = false → cycleEvents c = [])

/-- A command and the terminating byte in one cycle (R223, R268): FP_ABORT wins over the carriage return; FP_CLR makes
the byte the first of the new line. -/
def Obligations.CommandWinsOverTheByteOfItsCycle : Prop :=
  ∀ (c : Cycle) (s : State), s.pending = [] → s.params.wellFormed = true → c.rst = false → c.cmdValid = true →
    c.cmdReady = true → c.rxValid = true →
    (c.cmdOp = 0x7#4 → s.fpState = .collect →
      ∃ t, stepN 2 (presentCycles [c] s) = .next t ∧ t.rxStatus = .stTransportFault ∧ t.rxLine = [] ∧
        t.fpState = .done) ∧
    (c.cmdOp = 0x6#4 →
      ∃ t, stepN 2 (presentCycles [c] s) = .next t ∧ t.fpState = .collect ∧ t.rxBuf = [c.rxData])

/-! ### The host contract -/

/-- Open (R173): already open is a no-op failure whatever the transport would answer, which changes the session's status
alone; else the transport's answer decides, and the open flag and the status alone change; no event reaches the block. -/
def Obligations.OpenIsANoOpFailureWhenOpen : Prop :=
  ∀ (ok : Bool) (s : State), ∃ r t, openSession ok s = .next (r, t) ∧
    { t with session := s.session } = s ∧ r.data = [] ∧
    (s.session.isOpen = true → r.success = false ∧ t.session.isOpen = true ∧
      statusString t.session.status.text = "already opened" ∧ t = setSessionStatus r.status s ∧
      ∀ other, openSession other s = openSession ok s) ∧
    (s.session.isOpen = false → ok = true →
      r.success = true ∧ t = { s with session := { s.session with isOpen := true, status := r.status } }) ∧
    (s.session.isOpen = false → ok = false →
      r.success = false ∧ r.status.code = .stPortUnavailable ∧ t.session.isOpen = false ∧
      t = setSessionStatus r.status s)

/-- Close (R174): already closed is a failure that changes nothing, else the session is closed, also when the
transport's close fails, and the open flag and the status alone change. -/
def Obligations.CloseAlwaysLeavesTheSessionClosed : Prop :=
  ∀ (ok : Bool) (s : State), ∃ r t, closeSession ok s = .next (r, t) ∧
    { t with session := s.session } = s ∧ t.session.isOpen = false ∧
    (s.session.isOpen = false → r.success = false ∧ statusString r.status.text = "not open" ∧ t = s) ∧
    (s.session.isOpen = true → t = { s with session := { s.session with isOpen := false, status := r.status } }) ∧
    (s.session.isOpen = true → ok = true → r.success = true) ∧
    (s.session.isOpen = true → ok = false → r.success = false ∧ r.status.code = .stTransportFault)

/-- A transaction on a closed session (R175 step 1, R180): "port not open", no event, the recorded texts kept; so also
every typed operation, with any arguments. -/
def Obligations.ClosedSessionSendsNothing : Prop :=
  ∀ (code mode : Pair) (a b : Bytes) (args : List Bytes) (f : Config.ReadFamily) (x : Exchange) (s : State),
    s.session.isOpen = false →
    ∀ op, op = transmit code a b x s ∨ op = readRegister code a b x s ∨ op = getFamily f x s ∨
        op = setOperationMode mode x s ∨ op = setConstValue a b x s ∨ op = setRunModeInit x s ∨ op = setStep args x s →
      ∃ r t, op = .next (r, t) ∧ r.success = false ∧ r.status.code = .stPortUnavailable ∧
        statusString r.status.text = "port not open" ∧ t = setSessionStatus r.status s

/-- A transaction that reads a line (R175, R179): from an open session and an idle builder, with the write done and a
fitting response, the early bytes before the rest of it, `transmit` succeeds with that line whatever its checksum, records
both texts, emits exactly the request, and leaves the session open. That the status of a success is `ST_OK` is the
model's reading (log 10); that early bytes come before the request's is too (log 13). -/
def Obligations.TransmitDeliversTheLine : Prop :=
  ∀ (code : Pair) (a b line junk : Bytes) (x : Exchange) (s : State), s.session.isOpen = true → s.fbState = .idle →
    line ≠ [] → hasTerminator line = false → (∀ cap, s.params.rxCap = .finite cap → line.length + 1 ≤ cap) →
    x.writeOk = true → x.early ++ x.response = line ++ [0x2A#8, 0x0D#8] ++ junk →
    ∃ r t, transmit code a b x s = .next (r, t) ∧
      r.success = true ∧ r.data = line ∧ r.status.code = .stOk ∧
      t.txOut = s.txOut ++ buildRequest s.session.address code a b ∧ t.fbState = .idle ∧
      t.rxStatus = (if verify line then .stOk else .stChecksumMismatch) ∧
      t.session = { s.session with
        lastTx := buildRequest s.session.address code a b, lastRx := line, status := r.status }

/-- A transaction that reads no line (R175 steps 3 and 4, R179): bytes without a terminator end in the transport fault, an
empty line in the empty response, more bytes than a finite buffer holds without a terminator in the overrun, a failed
write in the transport fault; the received text is empty, the session stays open, and with an idle builder the recorded
request is the one meant. That early bytes come before the request's is the model's reading (log 13). -/
def Obligations.TransmitFailsWithoutALine : Prop :=
  ∀ (code : Pair) (a b rest : Bytes) (x : Exchange) (s : State), s.session.isOpen = true →
    ∃ r t, transmit code a b x s = .next (r, t) ∧ t.session.isOpen = true ∧
      (s.fbState = .idle → t.session.lastTx = buildRequest s.session.address code a b) ∧
      (x.writeOk = true → hasTerminator (x.early ++ x.response) = false →
        (∀ cap, s.params.rxCap = .finite cap → (x.early ++ x.response).length ≤ cap) →
        r.success = false ∧ r.data = [] ∧ r.status.code = .stTransportFault ∧ t.rxStatus = .stTransportFault ∧
          t.session.lastRx = []) ∧
      (x.writeOk = true → s.params.wellFormed = true → x.early ++ x.response = [0x2A#8, 0x0D#8] ++ rest →
        r.success = false ∧ r.data = [] ∧ r.status.code = .stEmptyResponse ∧ t.rxStatus = .stEmptyResponse ∧
          t.session.lastRx = []) ∧
      (∀ cap, x.writeOk = true → s.params.rxCap = .finite cap → cap < (x.early ++ x.response).length →
        hasTerminator ((x.early ++ x.response).take (cap + 1)) = false →
        r.success = false ∧ r.data = [] ∧ r.status.code = .stOverrun ∧ t.rxStatus = .stOverrun ∧
          t.session.lastRx = []) ∧
      (x.writeOk = false →
        r.success = false ∧ r.data = [] ∧ r.status.code = .stTransportFault ∧ t.session.lastRx = [])

/-- read_register (R180): once the request is written, success exactly when FP latched `ST_OK`, and then with the body;
a checksum failure is "checksum error" with the raw response kept. -/
def Obligations.ReadRegisterSucceedsExactlyOnOk : Prop :=
  ∀ (code : Pair) (a b : Bytes) (x : Exchange) (s : State), s.session.isOpen = true → x.writeOk = true →
    ∃ r t, readRegister code a b x s = .next (r, t) ∧
      (r.success = true ↔ t.rxStatus = .stOk) ∧ (r.success = true → r.data = rxBody t) ∧
      (r.success = false → r.data = []) ∧
      (t.rxStatus = .stChecksumMismatch →
        r.status.code = .stChecksumMismatch ∧ statusString r.status.text = "checksum error") ∧
      t.session.lastRx = t.rxLine ∧ t.session.status = r.status ∧ t.session.isOpen = true

/-- set_operation_mode (R183): with a fitting acknowledgement, success exactly when its checksum holds and both echoed
fields match; the two failures are told apart. That early bytes come before the request's is the model's reading
(log 13). -/
def Obligations.SetOperationModeChecksTwice : Prop :=
  ∀ (mode : Pair) (line junk : Bytes) (x : Exchange) (s : State), s.session.isOpen = true → line ≠ [] →
    hasTerminator line = false → (∀ cap, s.params.rxCap = .finite cap → line.length + 1 ≤ cap) →
    x.writeOk = true → x.early ++ x.response = line ++ [0x2A#8, 0x0D#8] ++ junk →
    ∃ r t, setOperationMode mode x s = .next (r, t) ∧
      (r.success = true ↔
        verify line = true ∧ ackMatch s.params.ackModeOffset line ⟨0x35#8, 0x33#8⟩ mode = true) ∧
      (r.success = true ↔ t.ackOk = true) ∧
      (verify line = false → r.status.code = .stChecksumMismatch) ∧
      (verify line = true → ackMatch s.params.ackModeOffset line ⟨0x35#8, 0x33#8⟩ mode = false →
        r.status.code = .stAckMismatch ∧ statusString r.status.text = "operation setting failed") ∧
      t.session.status = r.status

/-- The weak writes (R184, R185, R186): a fitting non-empty response is success whatever its checksum, and no
acknowledgement is checked. That early bytes come before the request's is the model's reading (log 13). -/
def Obligations.WeakWritesIgnoreTheChecksum : Prop :=
  ∀ (temp slope line junk : Bytes) (args : List Bytes) (x : Exchange) (s : State), s.session.isOpen = true → line ≠ [] →
    hasTerminator line = false → (∀ cap, s.params.rxCap = .finite cap → line.length + 1 ≤ cap) →
    x.writeOk = true → x.early ++ x.response = line ++ [0x2A#8, 0x0D#8] ++ junk →
    ∀ op, op = setConstValue temp slope x s ∨ op = setRunModeInit x s ∨ op = setStep args x s →
      ∃ r t, op = .next (r, t) ∧ r.success = true ∧ t.ackOk = false ∧ t.session.lastRx = line

/-- Every host operation returns, whatever the transport does and whatever the block's state (R188), and none but Open
and Close moves the open flag (R172, R27). -/
def Obligations.HostOperationsAlwaysReturn : Prop :=
  ∀ (code mode : Pair) (a b : Bytes) (args : List Bytes) (f : Config.ReadFamily) (x : Exchange) (s : State),
    ∀ op, op = transmit code a b x s ∨ op = readRegister code a b x s ∨ op = getFamily f x s ∨
        op = setOperationMode mode x s ∨ op = setConstValue a b x s ∨ op = setRunModeInit x s ∨ op = setStep args x s →
      ∃ r t, op = .next (r, t) ∧ t.session.isOpen = s.session.isOpen ∧ t.session.address = s.session.address ∧
        t.session.status = r.status

/-- The same read on the same response returns the same result and sends the same frame, whatever else the two states
hold (R190, V9). -/
def Obligations.RepeatedReadReturnsTheSameBody : Prop :=
  ∀ (code : Pair) (a b : Bytes) (x : Exchange) (s s' : State), s.session.isOpen = s'.session.isOpen →
    s.session.address = s'.session.address → s.params.rxCap = s'.params.rxCap → s.fbState = s'.fbState →
    ∃ r t t', readRegister code a b x s = .next (r, t) ∧ readRegister code a b x s' = .next (r, t') ∧
      (s.fbState = .idle → ∃ frame, t.txOut = s.txOut ++ frame ∧ t'.txOut = s'.txOut ++ frame)

/-- A host that keeps to the contract of R260 to R264 from an idle builder never has a command rejected, wherever its run
stands; a run that keeps to it to its end leaves no frame half built, and has the result of a request it sent (R253). The
monitor is the model's reading of those rules (logs 24 and 30). -/
def Obligations.ContractHostIsNeverRejected : Prop :=
  ∀ (is : List Instr) (s : State), s.fbState = .idle →
    (contractSoFar .between s is = true → noneRejected s is = true) ∧
    (contractKept .between s is = true → noneRejected s is = true ∧
      ∃ t, execAll is s = .next t ∧ quiescent t = true ∧
        (phaseAfter .between is = .awaiting → transactionComplete t = true))
end

