-- ==== Sys2Proof/Laws/Checksum.lean ====
section
/-! SUPPORT. The spec lemmas of the checksum functions, of slices, and of the parts of a frame. -/

namespace Sys2Proof.Machine

@[simp] theorem xorFold_nil : xorFold [] = 0x00#8 := rfl

theorem foldl_xor_start (c : Byte) (s : Bytes) : s.foldl (fun acc b => acc ^^^ b) c = c ^^^ xorFold s := by
  induction s generalizing c with
  | nil => simp [xorFold]
  | cons b s ih =>
    show s.foldl _ (c ^^^ b) = c ^^^ s.foldl _ (0x00#8 ^^^ b)
    rw [ih, ih (0x00#8 ^^^ b), BitVec.xor_assoc, BitVec.zero_xor]

theorem xorFold_cons (b : Byte) (s : Bytes) : xorFold (b :: s) = b ^^^ xorFold s := by
  show s.foldl _ (0x00#8 ^^^ b) = _
  rw [foldl_xor_start, BitVec.zero_xor]

theorem xorFold_append (s t : Bytes) : xorFold (s ++ t) = xorFold s ^^^ xorFold t := by
  induction s with
  | nil => simp
  | cons b s ih => rw [List.cons_append, xorFold_cons, xorFold_cons, ih, BitVec.xor_assoc]

theorem xorFold_singleton (b : Byte) : xorFold [b] = b := by simp [xorFold_cons]

/-- A slice from the start is a prefix. -/
theorem slice_zero (s : Bytes) (j : Nat) : slice s 0 j = s.take j := rfl

theorem slice_append_left (s t : Bytes) : slice (s ++ t) 0 s.length = s := by simp [slice_zero]

theorem slice_append_right (s t : Bytes) : slice (s ++ t) s.length (s ++ t).length = t := by
  rw [slice, List.take_length, List.drop_left]

/-- The field comparison is equality with the two digits (R93). -/
theorem fcsEq_iff (field : Bytes) (v : Byte) : fcsEq field v = true ↔ field = hex2 v := by
  unfold fcsEq hex2
  split
  · simp
  · rename_i h
    constructor
    · intro hf; exact absurd hf (by simp)
    · intro hf; exact absurd hf (h _ _)

theorem verify_short {line : Bytes} (h : line.length < 2) : verify line = false := by simp [verify, h]

/-- Verification of a line cut into body and checksum field (R132). -/
theorem verify_append (body field : Bytes) (h : field.length = 2) :
    verify (body ++ field) = true ↔ field = hex2 (xorFold body) := by
  have hl : (body ++ field).length - 2 = body.length := by simp [h]
  have hn : ¬ (body ++ field).length < 2 := by simp [h]
  rw [verify, if_neg hn, hl, slice_append_left, slice_append_right, fcsEq_iff]

theorem bodyOf_append (body field : Bytes) (h : field.length = 2) : bodyOf (body ++ field) = body := by
  have hl : (body ++ field).length - 2 = body.length := by simp [h]
  have hn : ¬ (body ++ field).length < 2 := by simp [h]
  rw [bodyOf, if_neg hn, hl, slice_append_left]

@[simp] theorem hex2_length (v : Byte) : (hex2 v).length = 2 := rfl

@[simp] theorem terminator_length : terminator.length = 2 := rfl

@[simp] theorem frameHead_length (addr sig : Pair) : (frameHead addr sig).length = 5 := rfl

/-- A line that verifies ends in the digits of the checksum of the rest. -/
theorem verify_cases {line : Bytes} (h : verify line = true) :
    ∃ body, line = body ++ hex2 (xorFold body) := by
  by_cases hl : line.length < 2
  · rw [verify_short hl] at h; cases h
  · refine ⟨line.take (line.length - 2), ?_⟩
    have hcut : line = line.take (line.length - 2) ++ line.drop (line.length - 2) := (List.take_append_drop _ _).symm
    have hf : (line.drop (line.length - 2)).length = 2 := by simp; omega
    rw [hcut, verify_append _ _ hf] at h
    rw [← h]; exact hcut

/-- The request is the body, the digits of its checksum and the terminator (R110). -/
theorem buildRequest_eq (addr sig : Pair) (a b : Bytes) :
    buildRequest addr sig a b =
      requestBody addr sig a b ++ (hex2 (xorFold (requestBody addr sig a b)) ++ terminator) := by
  rw [buildRequest, List.append_assoc]

theorem lineOf_buildRequest (addr sig : Pair) (a b : Bytes) :
    lineOf (buildRequest addr sig a b) = requestBody addr sig a b ++ hex2 (xorFold (requestBody addr sig a b)) := by
  have h : (buildRequest addr sig a b).length - 2
      = (requestBody addr sig a b ++ hex2 (xorFold (requestBody addr sig a b))).length := by
    simp [buildRequest]
  rw [lineOf, h, buildRequest, slice_append_left]

/-- Appending one byte makes a terminator only after a `*` (R131). -/
theorem hasTerminator_snoc (s : Bytes) (b : Byte) :
    hasTerminator (s ++ [b]) = (hasTerminator s || (s.getLast? == some Config.term0 && b == Config.term1)) := by
  induction s with
  | nil => rfl
  | cons a s ih =>
    cases s with
    | nil => simp [hasTerminator]
    | cons c s =>
      show (a == Config.term0 && c == Config.term1 || hasTerminator ((c :: s) ++ [b])) = _
      rw [ih, List.getLast?_cons_cons, ← Bool.or_assoc]
      rfl

end Sys2Proof.Machine
end

