-- ==== Sys2Proof/Laws/Decode.lean ====
section
/-! SUPPORT. The fields of a command word: reading a field of a word built from its fields gives the field back. -/

namespace Sys2Proof

theorem getLsbD_cmdWord (op : BitVec 4) (d : BitVec 32) (k : Nat) :
    (cmdWord op d).getLsbD k = if k < 32 then d.getLsbD k else op.getLsbD (k - 32) := by
  have h := @BitVec.getLsbD_append 4 32 k op d
  simpa [cmdWord] using h

theorem getLsbD_pairData (p q : Pair) (k : Nat) :
    (pairData p q).getLsbD k =
      if k < 8 then q.c1.getLsbD k
      else if k < 16 then q.c0.getLsbD (k - 8)
      else if k < 24 then p.c1.getLsbD (k - 16)
      else p.c0.getLsbD (k - 24) := by
  have h1 := @BitVec.getLsbD_append 24 8 k (p.c0 ++ p.c1 ++ q.c0) q.c1
  have h2 := @BitVec.getLsbD_append 16 8 (k - 8) (p.c0 ++ p.c1) q.c0
  have h3 := @BitVec.getLsbD_append 8 8 (k - 16) p.c0 p.c1
  unfold pairData
  refine h1.trans ?_
  split
  · rfl
  · rename_i h8
    refine h2.trans ?_
    by_cases h16 : k < 16
    · rw [if_pos (by omega), if_pos h16]
    · rw [if_neg (by omega), if_neg h16, Nat.sub_sub]
      refine h3.trans ?_
      by_cases h24 : k < 24
      · rw [if_pos (by omega), if_pos h24]
      · rw [if_neg (by omega), if_neg h24, Nat.sub_sub]

/-- The opcode of a word built from opcode and operand (R71). -/
theorem opcodeOf_cmdWord (op : BitVec 4) (d : BitVec 32) : opcodeOf (cmdWord op d) = op := by
  apply BitVec.eq_of_getLsbD_eq
  intro k hk
  simp [opcodeOf, getLsbD_cmdWord, hk]

theorem dataOf_cmdWord (op : BitVec 4) (d : BitVec 32) : dataOf (cmdWord op d) = d := by
  apply BitVec.eq_of_getLsbD_eq
  intro k hk
  simp [dataOf, getLsbD_cmdWord, hk]

theorem byteOperand_byteData (b : Byte) : byteOperand (byteData b) = b := by
  apply BitVec.eq_of_getLsbD_eq
  intro k hk
  simp [byteOperand, byteData, hk]
  omega

theorem upperPair_pairData (p q : Pair) : upperPair (pairData p q) = p := by
  rcases p with ⟨a, b⟩
  unfold upperPair
  congr 1
  · apply BitVec.eq_of_getLsbD_eq
    intro k hk
    rw [BitVec.getLsbD_extractLsb', getLsbD_pairData]
    rw [if_neg (by omega), if_neg (by omega), if_neg (by omega)]
    simp [hk]
  · apply BitVec.eq_of_getLsbD_eq
    intro k hk
    rw [BitVec.getLsbD_extractLsb', getLsbD_pairData]
    rw [if_neg (by omega), if_neg (by omega), if_pos (by omega)]
    simp [hk]

theorem lowerPair_pairData (p q : Pair) : lowerPair (pairData p q) = q := by
  rcases q with ⟨a, b⟩
  unfold lowerPair
  congr 1
  · apply BitVec.eq_of_getLsbD_eq
    intro k hk
    rw [BitVec.getLsbD_extractLsb', getLsbD_pairData]
    rw [if_neg (by omega), if_pos (by omega)]
    simp [hk]
  · apply BitVec.eq_of_getLsbD_eq
    intro k hk
    rw [BitVec.getLsbD_extractLsb', getLsbD_pairData]
    rw [if_pos (by omega)]
    simp [hk]

/-- Decoding a word built from opcode and operand reads exactly these (R71). -/
theorem decode_cmdWord (op : BitVec 4) (d : BitVec 32) : decode (.cmd (cmdWord op d)) = decodeFields op d := by
  show decodeFields _ _ = _
  rw [opcodeOf_cmdWord, dataOf_cmdWord]

/-- A command word is its opcode and its operand (R71). -/
theorem cmdWord_fields (w : BitVec 36) : cmdWord (opcodeOf w) (dataOf w) = w := by
  apply BitVec.eq_of_getLsbD_eq
  intro k hk
  rw [getLsbD_cmdWord]
  split
  · simp [dataOf, *]
  · have h4 : k - 32 < 4 := by omega
    have hk' : 32 + (k - 32) = k := by omega
    simp [opcodeOf, h4, hk']

/-- No opcode is outside the map of R73. -/
theorem decodeFields_total (op : BitVec 4) (d : BitVec 32) : ∃ i, decodeFields op d = .ok i := by
  have hlt := op.isLt
  unfold decodeFields
  generalize op.toNat = n at hlt
  interval_cases n <;> exact ⟨_, rfl⟩

/-- What decodes is exactly what is well formed (R71). -/
theorem decode_ok_iff_wellFormed (r : Raw) : (∃ i, decode r = .ok i) ↔ r.wellFormed = true := by
  cases r with
  | cmd w => exact ⟨fun _ => rfl, fun _ => decodeFields_total _ _⟩
  | rxb b => exact ⟨fun _ => rfl, fun _ => ⟨_, rfl⟩⟩
  | pin rst => cases rst <;> simp [decode, Raw.wellFormed]

end Sys2Proof
end

