-- ==== Sys2Proof/Laws/State.lean ====
section
/-! SUPPORT. What each named update of the state writes and leaves alone: one lemma per field. -/

namespace Sys2Proof.Machine

@[simp] theorem accepted_csAcc (s : State) : (accepted s).csAcc = s.csAcc := rfl
@[simp] theorem accepted_fbState (s : State) : (accepted s).fbState = s.fbState := rfl
@[simp] theorem accepted_txAcc (s : State) : (accepted s).txAcc = s.txAcc := rfl
@[simp] theorem accepted_txOut (s : State) : (accepted s).txOut = s.txOut := rfl
@[simp] theorem accepted_fpState (s : State) : (accepted s).fpState = s.fpState := rfl
@[simp] theorem accepted_rxBuf (s : State) : (accepted s).rxBuf = s.rxBuf := rfl
@[simp] theorem accepted_rxLine (s : State) : (accepted s).rxLine = s.rxLine := rfl
@[simp] theorem accepted_rxStatus (s : State) : (accepted s).rxStatus = s.rxStatus := rfl
@[simp] theorem accepted_ackOk (s : State) : (accepted s).ackOk = s.ackOk := rfl
@[simp] theorem accepted_cmdReject (s : State) : (accepted s).cmdReject = false := rfl
@[simp] theorem accepted_pending (s : State) : (accepted s).pending = s.pending := rfl
@[simp] theorem accepted_params (s : State) : (accepted s).params = s.params := rfl
@[simp] theorem accepted_session (s : State) : (accepted s).session = s.session := rfl

@[simp] theorem rejected_csAcc (s : State) : (rejected s).csAcc = s.csAcc := rfl
@[simp] theorem rejected_fbState (s : State) : (rejected s).fbState = s.fbState := rfl
@[simp] theorem rejected_txAcc (s : State) : (rejected s).txAcc = s.txAcc := rfl
@[simp] theorem rejected_txOut (s : State) : (rejected s).txOut = s.txOut := rfl
@[simp] theorem rejected_fpState (s : State) : (rejected s).fpState = s.fpState := rfl
@[simp] theorem rejected_rxBuf (s : State) : (rejected s).rxBuf = s.rxBuf := rfl
@[simp] theorem rejected_rxLine (s : State) : (rejected s).rxLine = s.rxLine := rfl
@[simp] theorem rejected_rxStatus (s : State) : (rejected s).rxStatus = s.rxStatus := rfl
@[simp] theorem rejected_ackOk (s : State) : (rejected s).ackOk = s.ackOk := rfl
@[simp] theorem rejected_cmdReject (s : State) : (rejected s).cmdReject = true := rfl
@[simp] theorem rejected_pending (s : State) : (rejected s).pending = s.pending := rfl
@[simp] theorem rejected_params (s : State) : (rejected s).params = s.params := rfl
@[simp] theorem rejected_session (s : State) : (rejected s).session = s.session := rfl

@[simp] theorem emit_csAcc (bs : Bytes) (s : State) : (emit bs s).csAcc = s.csAcc := rfl
@[simp] theorem emit_fbState (bs : Bytes) (s : State) : (emit bs s).fbState = s.fbState := rfl
@[simp] theorem emit_txAcc (bs : Bytes) (s : State) : (emit bs s).txAcc = s.txAcc := rfl
@[simp] theorem emit_txOut (bs : Bytes) (s : State) : (emit bs s).txOut = s.txOut ++ bs := rfl
@[simp] theorem emit_fpState (bs : Bytes) (s : State) : (emit bs s).fpState = s.fpState := rfl
@[simp] theorem emit_rxBuf (bs : Bytes) (s : State) : (emit bs s).rxBuf = s.rxBuf := rfl
@[simp] theorem emit_rxLine (bs : Bytes) (s : State) : (emit bs s).rxLine = s.rxLine := rfl
@[simp] theorem emit_rxStatus (bs : Bytes) (s : State) : (emit bs s).rxStatus = s.rxStatus := rfl
@[simp] theorem emit_ackOk (bs : Bytes) (s : State) : (emit bs s).ackOk = s.ackOk := rfl
@[simp] theorem emit_cmdReject (bs : Bytes) (s : State) : (emit bs s).cmdReject = s.cmdReject := rfl
@[simp] theorem emit_pending (bs : Bytes) (s : State) : (emit bs s).pending = s.pending := rfl
@[simp] theorem emit_params (bs : Bytes) (s : State) : (emit bs s).params = s.params := rfl
@[simp] theorem emit_session (bs : Bytes) (s : State) : (emit bs s).session = s.session := rfl

@[simp] theorem clearFp_csAcc (s : State) : (clearFp s).csAcc = s.csAcc := rfl
@[simp] theorem clearFp_fbState (s : State) : (clearFp s).fbState = s.fbState := rfl
@[simp] theorem clearFp_txAcc (s : State) : (clearFp s).txAcc = s.txAcc := rfl
@[simp] theorem clearFp_txOut (s : State) : (clearFp s).txOut = s.txOut := rfl
@[simp] theorem clearFp_fpState (s : State) : (clearFp s).fpState = .collect := rfl
@[simp] theorem clearFp_rxBuf (s : State) : (clearFp s).rxBuf = [] := rfl
@[simp] theorem clearFp_rxLine (s : State) : (clearFp s).rxLine = [] := rfl
@[simp] theorem clearFp_rxStatus (s : State) : (clearFp s).rxStatus = .stNone := rfl
@[simp] theorem clearFp_ackOk (s : State) : (clearFp s).ackOk = false := rfl
@[simp] theorem clearFp_cmdReject (s : State) : (clearFp s).cmdReject = s.cmdReject := rfl
@[simp] theorem clearFp_pending (s : State) : (clearFp s).pending = s.pending := rfl
@[simp] theorem clearFp_params (s : State) : (clearFp s).params = s.params := rfl
@[simp] theorem clearFp_session (s : State) : (clearFp s).session = s.session := rfl

@[simp] theorem resetBlock_csAcc (s : State) : (resetBlock s).csAcc = 0x00#8 := rfl
@[simp] theorem resetBlock_fbState (s : State) : (resetBlock s).fbState = .idle := rfl
@[simp] theorem resetBlock_txAcc (s : State) : (resetBlock s).txAcc = 0x00#8 := rfl
@[simp] theorem resetBlock_txOut (s : State) : (resetBlock s).txOut = [] := rfl
@[simp] theorem resetBlock_fpState (s : State) : (resetBlock s).fpState = .collect := rfl
@[simp] theorem resetBlock_rxBuf (s : State) : (resetBlock s).rxBuf = [] := rfl
@[simp] theorem resetBlock_rxLine (s : State) : (resetBlock s).rxLine = [] := rfl
@[simp] theorem resetBlock_rxStatus (s : State) : (resetBlock s).rxStatus = .stNone := rfl
@[simp] theorem resetBlock_ackOk (s : State) : (resetBlock s).ackOk = false := rfl
@[simp] theorem resetBlock_cmdReject (s : State) : (resetBlock s).cmdReject = s.cmdReject := rfl
@[simp] theorem resetBlock_pending (s : State) : (resetBlock s).pending = s.pending := rfl
@[simp] theorem resetBlock_params (s : State) : (resetBlock s).params = s.params := rfl
@[simp] theorem resetBlock_session (s : State) : (resetBlock s).session = s.session := rfl

@[simp] theorem setSessionStatus_csAcc (st : SessionStatus) (s : State) : (setSessionStatus st s).csAcc = s.csAcc := rfl
@[simp] theorem setSessionStatus_fbState (st : SessionStatus) (s : State) : (setSessionStatus st s).fbState = s.fbState := rfl
@[simp] theorem setSessionStatus_txAcc (st : SessionStatus) (s : State) : (setSessionStatus st s).txAcc = s.txAcc := rfl
@[simp] theorem setSessionStatus_txOut (st : SessionStatus) (s : State) : (setSessionStatus st s).txOut = s.txOut := rfl
@[simp] theorem setSessionStatus_fpState (st : SessionStatus) (s : State) : (setSessionStatus st s).fpState = s.fpState := rfl
@[simp] theorem setSessionStatus_rxBuf (st : SessionStatus) (s : State) : (setSessionStatus st s).rxBuf = s.rxBuf := rfl
@[simp] theorem setSessionStatus_rxLine (st : SessionStatus) (s : State) : (setSessionStatus st s).rxLine = s.rxLine := rfl
@[simp] theorem setSessionStatus_rxStatus (st : SessionStatus) (s : State) : (setSessionStatus st s).rxStatus = s.rxStatus := rfl
@[simp] theorem setSessionStatus_ackOk (st : SessionStatus) (s : State) : (setSessionStatus st s).ackOk = s.ackOk := rfl
@[simp] theorem setSessionStatus_cmdReject (st : SessionStatus) (s : State) : (setSessionStatus st s).cmdReject = s.cmdReject := rfl
@[simp] theorem setSessionStatus_pending (st : SessionStatus) (s : State) : (setSessionStatus st s).pending = s.pending := rfl
@[simp] theorem setSessionStatus_params (st : SessionStatus) (s : State) : (setSessionStatus st s).params = s.params := rfl
@[simp] theorem setSessionStatus_session (st : SessionStatus) (s : State) : (setSessionStatus st s).session = { s.session with status := st } := rfl

end Sys2Proof.Machine
end

