-- ==== Sys2Proof/Laws/Exec.lean ====
section
/-! SUPPORT. The spec lemmas of the shared operations, of the events and of the step: what each answers. -/

namespace Sys2Proof.Machine

@[simp] theorem andThen_next {α β : Type} (a : α) (f : α → Host.Outcome β Fault Refusal) :
    andThen (.next a) f = f a := rfl

/-- Latching any status but an acknowledgement mismatch, field by field (R226). -/
theorem raise_latches {st : Status} (h : st ≠ .stAckMismatch) (line : Bytes) (s : State) :
    raise st line s =
      { s with rxStatus := st, rxLine := if retainsLine st then line else [], rxBuf := [], fpState := .done } := by
  cases st <;> first | rfl | exact absurd rfl h

/-- A completed line is latched whole, with its verdict (R144). -/
theorem complete_eq (line : Bytes) (s : State) :
    complete line s = { s with rxStatus := judge line, rxLine := line, rxBuf := [], fpState := .done } := by
  have hj : judge line ≠ .stAckMismatch := by unfold judge; split <;> [simp; (split <;> simp)]
  rw [complete, raise_latches hj]
  have hl : (if retainsLine (judge line) then line else []) = line := by
    unfold judge
    split
    · rename_i h; simp [retainsLine, List.eq_nil_of_length_eq_zero h]
    · split <;> simp [retainsLine]
  rw [hl]

/-- The three things a received byte can do while collecting (R140). -/
theorem takeByte_collect {s : State} (h : s.fpState = .collect) (b : Byte) :
    (∃ line, s.rxBuf = line ++ [Config.term0] ∧ b = Config.term1 ∧ takeByte b s = complete line s) ∨
    (¬ (b = Config.term1 ∧ s.rxBuf.getLast? = some Config.term0) ∧ capReached s.params.rxCap s.rxBuf.length = true ∧
      takeByte b s = raise .stOverrun [] s) ∨
    (¬ (b = Config.term1 ∧ s.rxBuf.getLast? = some Config.term0) ∧ capReached s.params.rxCap s.rxBuf.length = false ∧
      takeByte b s = { s with rxBuf := s.rxBuf ++ [b] }) := by
  unfold takeByte
  rw [h]
  by_cases ht : b = Config.term1 ∧ s.rxBuf.getLast? = some Config.term0
  · left
    obtain ⟨line, hline⟩ := List.getLast?_eq_some_iff.mp ht.2
    refine ⟨line, hline, ht.1, ?_⟩
    rw [if_pos ht, hline]
    simp [slice]
  · right
    rw [if_neg ht]
    cases hc : capReached s.params.rxCap s.rxBuf.length
    · exact .inr ⟨ht, rfl, by simp⟩
    · exact .inl ⟨ht, rfl, by simp⟩

theorem takeByte_done {s : State} (h : s.fpState = .done) (b : Byte) : takeByte b s = s := by
  simp [takeByte, h]

/-- What the state after an event is; `exec` answers it always (see `exec_eq`). -/
def after (i : Instr) (s : State) : State :=
  match exec i s with
  | .next t => t
  | .fault _ => s
  | .refused _ => s

/-- Every event completes in every state (R188: no fault escapes). -/
theorem exec_eq (i : Instr) (s : State) : exec i s = .next (after i s) := by
  cases i <;> rfl

theorem execAll_nil (s : State) : execAll [] s = .next s := rfl

theorem execAll_cons (i : Instr) (is : List Instr) (s : State) :
    execAll (i :: is) s = execAll is (after i s) := by
  rw [execAll, exec_eq, andThen_next]

theorem execAll_append (is js : List Instr) (s : State) :
    execAll (is ++ js) s = andThen (execAll is s) (execAll js) := by
  induction is generalizing s with
  | nil => rfl
  | cons i is ih => rw [List.cons_append, execAll_cons, execAll_cons, ih]

theorem execAll_completes (is : List Instr) (s : State) : ∃ t, execAll is s = .next t := by
  induction is generalizing s with
  | nil => exact ⟨s, rfl⟩
  | cons i is ih => rw [execAll_cons]; exact ih _

/-- A step with a decodable event waiting does that event on the rest of the input. -/
theorem step_of_decode {s : State} {r : Raw} {rest : List Raw} {i : Instr} (hp : s.pending = r :: rest)
    (hd : decode r = .ok i) : step s = exec i { s with pending := rest } := by
  simp [step, fetch, doPresented, hp, hd]

/-- Everything a step that answers a next state can have been. -/
theorem step_cases {s t : State} (h : step s = .next t) :
    ∃ r rest i, s.pending = r :: rest ∧ decode r = .ok i ∧ exec i { s with pending := rest } = .next t := by
  cases hp : s.pending with
  | nil => simp [step, fetch, hp] at h
  | cons r rest =>
    cases hd : decode r with
    | error e => simp [step, fetch, doPresented, hp, hd] at h
    | ok i => exact ⟨r, rest, i, rfl, hd, by rw [← step_of_decode hp hd]; exact h⟩

end Sys2Proof.Machine
end

