-- ==== Sys2Proof/Laws/Ops.lean ====
section
/-! SUPPORT. The spec lemmas of the remaining shared operations: reading the line, the capacity test, what one received
byte does, the acknowledgement fields, well-formed frames and the end of a line. -/

namespace Sys2Proof.Machine

/-- The two answers of a host read (R44). -/
theorem memRead_cases (k n : Nat) (s : State) :
    (k + n ≤ s.rxLine.length ∧ memRead k n s = .next (slice s.rxLine k (k + n))) ∨
    (s.rxLine.length < k + n ∧ memRead k n s = .refused (.readOutsideLine k n)) := by
  by_cases h : k + n ≤ s.rxLine.length
  · exact .inl ⟨h, by simp [memRead, h]⟩
  · exact .inr ⟨by omega, by simp [memRead, h]⟩

/-- The two answers of taking the next event (R49). -/
theorem fetch_cases (s : State) :
    (s.pending = [] ∧ fetch s = none) ∨
    ∃ r rest, s.pending = r :: rest ∧ fetch s = some (r, { s with pending := rest }) := by
  cases h : s.pending with
  | nil => exact .inl ⟨rfl, by simp [fetch, h]⟩
  | cons r rest => exact .inr ⟨r, rest, rfl, by simp [fetch, h]⟩

/-- The capacity test, "never true when RX_CAP is unbounded" (R140). -/
theorem capReached_iff (c : Config.RxCap) (n : Nat) : capReached c n = true ↔ c = .finite n := by
  cases c with
  | unbounded => simp [capReached]
  | finite m => simp [capReached]; exact eq_comm

theorem getLast_term0_iff (b : Bytes) : b.getLast? = some Config.term0 ↔ ∃ line, b = line ++ [0x2A#8] := by
  rw [List.getLast?_eq_some_iff]; rfl

/-- The output `cmd_reject` of an event says whether it was rejected (R76). -/
theorem after_cmdReject (i : Instr) (s : State) : (after i s).cmdReject = isRejected i s := by
  rcases s with ⟨cs, fb, ta, tx, fp, rb, rl, rs, ak, cr, pe, pa, se⟩
  cases i <;> cases fb <;> cases fp <;> rfl

/-- A byte that ends nothing and still fits is stored (R140). -/
theorem takeByte_store {s : State} (h : s.fpState = .collect) (b : Byte)
    (hn : ¬ (b = 0x0D#8 ∧ ∃ line, s.rxBuf = line ++ [0x2A#8])) (hc : s.params.rxCap ≠ .finite s.rxBuf.length) :
    takeByte b s = { s with rxBuf := s.rxBuf ++ [b] } := by
  rcases takeByte_collect h b with ⟨line, h1, h2, h3⟩ | ⟨h1, h2, h3⟩ | ⟨h1, h2, h3⟩
  · exact absurd ⟨h2, line, h1⟩ hn
  · exact absurd ((capReached_iff _ _).mp h2) hc
  · exact h3

/-- A byte that ends nothing and does not fit is an overrun (R140). -/
theorem takeByte_overrun {s : State} (h : s.fpState = .collect) (b : Byte)
    (hn : ¬ (b = 0x0D#8 ∧ ∃ line, s.rxBuf = line ++ [0x2A#8])) (hc : s.params.rxCap = .finite s.rxBuf.length) :
    takeByte b s = raise .stOverrun [] s := by
  rcases takeByte_collect h b with ⟨line, h1, h2, h3⟩ | ⟨h1, h2, h3⟩ | ⟨h1, h2, h3⟩
  · exact absurd ⟨h2, line, h1⟩ hn
  · exact h3
  · rw [← Bool.not_eq_true, capReached_iff] at h2; exact absurd hc h2

/-- The carriage return after a `*` completes the line, also in a full buffer (R140). -/
theorem takeByte_complete {s : State} (h : s.fpState = .collect) (line : Bytes) (hl : s.rxBuf = line ++ [0x2A#8]) :
    takeByte 0x0D#8 s = complete line s := by
  rcases takeByte_collect h 0x0D#8 with ⟨line', h1, h2, h3⟩ | ⟨h1, h2, h3⟩ | ⟨h1, h2, h3⟩
  · rw [hl] at h1
    rw [h3, (List.append_inj' h1 rfl).1]
  · exact absurd ⟨rfl, (getLast_term0_iff _).mpr ⟨line, hl⟩⟩ h1
  · exact absurd ⟨rfl, (getLast_term0_iff _).mpr ⟨line, hl⟩⟩ h1

/-- The verdict on a line, the empty one first (R144). -/
theorem judge_eq (line : Bytes) :
    judge line = if line = [] then .stEmptyResponse else if verify line then .stOk else .stChecksumMismatch := by
  unfold judge; cases line <;> rfl

/-- The three verdicts a line can get. -/
theorem judge_cases (line : Bytes) :
    (line = [] ∧ judge line = .stEmptyResponse) ∨ (line ≠ [] ∧ verify line = true ∧ judge line = .stOk) ∨
    (line ≠ [] ∧ verify line = false ∧ judge line = .stChecksumMismatch) := by
  rw [judge_eq]
  by_cases h : line = []
  · exact .inl ⟨h, by rw [if_pos h]⟩
  · cases hv : verify line
    · exact .inr (.inr ⟨h, rfl, by simp [h]⟩)
    · exact .inr (.inl ⟨h, rfl, by simp [h]⟩)

theorem ackField_iff (body : Bytes) (off : Nat) (p : Pair) :
    ackField body off p.bytes = true ↔ off + 2 ≤ body.length ∧ slice body off (off + 2) = [p.c0, p.c1] := by
  simp [ackField, Pair.bytes]

/-- ACKMATCH, field by field (R151). -/
theorem ackMatch_iff (off : Nat) (line : Bytes) (sig mode : Pair) :
    ackMatch off line sig mode = true ↔
      3 + 2 ≤ (bodyOf line).length ∧ slice (bodyOf line) 3 (3 + 2) = [sig.c0, sig.c1] ∧
      off + 2 ≤ (bodyOf line).length ∧ slice (bodyOf line) off (off + 2) = [mode.c0, mode.c1] := by
  rw [ackMatch, Bool.and_eq_true, ackField_iff, ackField_iff, and_assoc]; rfl

/-- The three things an ACK_CHK can do to a latched result (R150). -/
theorem ackVerdict_cases (sig mode : Pair) (s : State) :
    ((s.rxStatus = .stOk ∨ s.rxStatus = .stAckMismatch) ∧
      ackMatch s.params.ackModeOffset s.rxLine sig mode = true ∧
      ackVerdict sig mode s = { s with ackOk := true, rxStatus := .stOk }) ∨
    ((s.rxStatus = .stOk ∨ s.rxStatus = .stAckMismatch) ∧
      ackMatch s.params.ackModeOffset s.rxLine sig mode = false ∧
      ackVerdict sig mode s = { s with ackOk := false, rxStatus := .stAckMismatch }) ∨
    (¬ (s.rxStatus = .stOk ∨ s.rxStatus = .stAckMismatch) ∧ ackVerdict sig mode s = { s with ackOk := false }) := by
  cases hm : ackMatch s.params.ackModeOffset s.rxLine sig mode <;> cases hs : s.rxStatus <;>
    simp [ackVerdict, hs, hm, raise]

/-- Body, checksum digits and terminator make a well-formed frame (R60, R61). -/
theorem wellFormedFrame_of_body (body : Bytes) (h : 5 ≤ body.length) (h0 : body.take 1 = [Config.head]) :
    wellFormedFrame (body ++ hex2 (xorFold body) ++ terminator) = true := by
  have e : body ++ hex2 (xorFold body) ++ terminator = body ++ (hex2 (xorFold body) ++ terminator) :=
    List.append_assoc ..
  have l : (body ++ hex2 (xorFold body) ++ terminator).length = body.length + 4 := by simp
  simp only [wellFormedFrame, Bool.and_eq_true, decide_eq_true_eq, beq_iff_eq, l]
  refine ⟨⟨⟨by omega, ?_⟩, ?_⟩, ?_⟩
  · rw [slice_zero, e, List.take_append_of_le_length (by omega), h0]
  · have := slice_append_right (body ++ hex2 (xorFold body)) terminator
    rw [l] at this
    rw [show body.length + 4 - 2 = (body ++ hex2 (xorFold body)).length by simp]; exact this
  · rw [show body.length + 4 - 4 = body.length by omega, e, slice_append_left, slice, ← List.append_assoc,
      List.take_append_of_le_length (by simp), List.take_of_length_le (by simp), List.drop_left]

/-- Where a terminator pair stands. -/
theorem hasTerminator_false_iff (s : Bytes) :
    hasTerminator s = false ↔ ∀ k, ¬ (s[k]? = some 0x2A#8 ∧ s[k + 1]? = some 0x0D#8) := by
  induction s with
  | nil => simp [hasTerminator]
  | cons a s ih =>
    cases s with
    | nil => simp [hasTerminator]
    | cons b s =>
      rw [hasTerminator, Bool.or_eq_false_iff, ih]
      constructor
      · rintro ⟨h0, h⟩ k
        cases k with
        | zero => simpa [Config.term0, Config.term1] using h0
        | succ k => simpa using h k
      · intro h
        exact ⟨by simpa [Config.term0, Config.term1] using h 0, fun k => by simpa using h (k + 1)⟩

/-- A sequence without a terminator pair is what SPLITLINE leaves whole (R131). -/
theorem hasTerminator_iff_splitLine (s : Bytes) : hasTerminator s = false ↔ splitLine s = none := by
  induction s with
  | nil => simp [hasTerminator, splitLine]
  | cons a s ih =>
    cases s with
    | nil => simp [hasTerminator, splitLine]
    | cons b s =>
      rw [splitLine, hasTerminator]
      split
      · rename_i h; simp [h.1, h.2]
      · rename_i h
        have : (a == Config.term0 && b == Config.term1) = false := by
          simpa using h
        rw [this, Bool.false_or, ih]
        cases hx : splitLine (b :: s) <;> simp

theorem hasTerminator_star {line : Bytes} (h : hasTerminator line = false) :
    hasTerminator (line ++ [0x2A#8]) = false := by
  rw [hasTerminator_snoc, h]; simp [Config.term1]

theorem hasTerminator_prefix {l r : Bytes} (h : hasTerminator (l ++ r) = false) : hasTerminator l = false := by
  rw [hasTerminator_false_iff] at *
  intro k hk
  apply h k
  obtain ⟨h1, h2⟩ := hk
  have := (List.getElem?_eq_some_iff.mp h2).1
  rw [List.getElem?_append_left (by omega), List.getElem?_append_left this]
  exact ⟨h1, h2⟩

/-- SPLITLINE cuts the sequence into line, terminator and rest, and the line holds no terminator pair (R131). -/
theorem splitLine_parts {s line rest : Bytes} (h : splitLine s = some (line, rest)) :
    s = line ++ [0x2A#8, 0x0D#8] ++ rest ∧ hasTerminator line = false := by
  induction s generalizing line with
  | nil => cases h
  | cons a s ih =>
    cases s with
    | nil => cases h
    | cons b s =>
      rw [splitLine] at h
      split at h
      · rename_i hab; cases h; exact ⟨by rw [hab.1, hab.2]; rfl, rfl⟩
      · rename_i hab
        cases hx : splitLine (b :: s) with
        | none => rw [hx] at h; cases h
        | some x =>
          obtain ⟨l, r⟩ := x
          rw [hx] at h; cases h
          obtain ⟨h1, h2⟩ := ih hx
          refine ⟨by rw [List.cons_append, List.cons_append, ← h1], ?_⟩
          cases l with
          | nil => rfl
          | cons c l =>
            have hbc : b = c := (List.cons.inj h1).1
            show (a == Config.term0 && c == Config.term1 || hasTerminator (c :: l)) = false
            have hab' : (a == Config.term0 && b == Config.term1) = false := by simpa using hab
            rw [h2, ← hbc, hab']; rfl

end Sys2Proof.Machine
end

