-- ==== Sys2Proof/Laws/PerInstr.lean ====
section
/-! SUPPORT. One statement per event about its encoding: a command's canonical word sets no bit its event ignores, so the
word is its own masked form (30_encoding.md R72). -/

/-- The canonical command word of an event holds only bits that decoding looks at. -/
def Sys2Proof.Laws.EncodeFitsMask.Statement (i : Sys2Proof.Instr) : Prop :=
  ∀ w, Sys2Proof.encode i = .cmd w → w &&& Sys2Proof.operandMask i = w

namespace Sys2Proof.Laws.EncodeFitsMask

/-- The opcode alone, all operand bits 0. -/
theorem opcodeOnly (op : BitVec 4) (w : BitVec 36) (h : Raw.cmd (cmdWord op 0#32) = .cmd w) :
    w &&& 0xF00000000#36 = w := by
  cases h
  revert op
  decide

/-- An operand in `[7:0]`. -/
theorem byteOnly (op : BitVec 4) (b : Byte) (w : BitVec 36) (h : Raw.cmd (cmdWord op (byteData b)) = .cmd w) :
    w &&& 0xF000000FF#36 = w := by
  cases h
  apply BitVec.eq_of_getLsbD_eq
  intro k hk
  rw [BitVec.getLsbD_and, getLsbD_cmdWord]
  have hm : (0xF000000FF#36).getLsbD k = (decide (k < 8) || decide (32 ≤ k)) := by
    interval_cases k <;> decide
  rw [hm]
  by_cases h8 : k < 8
  · simp [h8]
  · by_cases h32 : k < 32
    · have h32' : ¬ 32 ≤ k := by omega
      have hb : (byteData b).getLsbD k = false := by
        rw [byteData, BitVec.getLsbD_setWidth, BitVec.getLsbD_of_ge b k (by omega), Bool.and_false]
      rw [if_pos h32, hb, Bool.false_and]
    · have h32' : 32 ≤ k := by omega
      simp [h32']

/-- An operand that fills the word. -/
theorem wholeWord (w : BitVec 36) : w &&& 0xFFFFFFFFF#36 = w := BitVec.and_allOnes

theorem nop : Statement .nop := fun w h => opcodeOnly _ w h
theorem csClr : Statement .csClr := fun w h => opcodeOnly _ w h
theorem csUpd (b : Byte) : Statement (.csUpd b) := fun w h => byteOnly _ b w h
theorem fbStart (addr sig : Pair) : Statement (.fbStart addr sig) := fun w _ => wholeWord w
theorem fbParam (b : Byte) : Statement (.fbParam b) := fun w h => byteOnly _ b w h
theorem fbEnd : Statement .fbEnd := fun w h => opcodeOnly _ w h
theorem fpClr : Statement .fpClr := fun w h => opcodeOnly _ w h
theorem fpAbort : Statement .fpAbort := fun w h => opcodeOnly _ w h
theorem ackChk (sig mode : Pair) : Statement (.ackChk sig mode) := fun w _ => wholeWord w
theorem reserved9 : Statement .reserved9 := fun w h => opcodeOnly _ w h
theorem reservedA : Statement .reservedA := fun w h => opcodeOnly _ w h
theorem reservedB : Statement .reservedB := fun w h => opcodeOnly _ w h
theorem reservedC : Statement .reservedC := fun w h => opcodeOnly _ w h
theorem reservedD : Statement .reservedD := fun w h => opcodeOnly _ w h
theorem reservedE : Statement .reservedE := fun w h => opcodeOnly _ w h
theorem reservedF : Statement .reservedF := fun w h => opcodeOnly _ w h
theorem fpByte (b : Byte) : Statement (.fpByte b) := fun _ h => by cases h
theorem reset : Statement .reset := fun _ h => by cases h

end Sys2Proof.Laws.EncodeFitsMask
end

