-- ==== Sys2Proof/Laws/Units.lean ====
section
/-! SUPPORT. The three units as views of the state: an event moves its own unit's view by that view alone and leaves the
others (20_memory.md R49), so that a sequence acts on a unit as the unit's own events do. -/

namespace Sys2Proof.Machine

/-- The state after a sequence of events; `execAll` answers it always (see `execAll_eq`). -/
def afterAll (is : List Instr) (s : State) : State := is.foldl (fun u i => after i u) s

theorem execAll_eq (is : List Instr) (s : State) : execAll is s = .next (afterAll is s) := by
  induction is generalizing s with
  | nil => rfl
  | cons i is ih => rw [execAll_cons, ih]; rfl

theorem afterAll_cons (i : Instr) (is : List Instr) (s : State) : afterAll (i :: is) s = afterAll is (after i s) := rfl

theorem afterAll_append (is js : List Instr) (s : State) : afterAll (is ++ js) s = afterAll js (afterAll is s) := by
  simp [afterAll, List.foldl_append]

/-- What the frame builder's events read and write. -/
def fbView (s : State) : FbState × Byte × Bytes := (s.fbState, s.txAcc, s.txOut)

/-- What the frame parser's events read and write, with the parameters they read. -/
def fpView (s : State) : FpState × Bytes × Bytes × Status × Bool × Config.Params :=
  (s.fpState, s.rxBuf, s.rxLine, s.rxStatus, s.ackOk, s.params)

/-- What no event writes. -/
theorem after_keeps (i : Instr) (s : State) :
    (after i s).params = s.params ∧ (after i s).session = s.session ∧ (after i s).pending = s.pending := by
  rcases s with ⟨cs, fb, ta, tx, fp, rb, rl, rs, ak, cr, pe, pa, se⟩
  cases i <;> cases fb <;> cases fp <;> cases rs <;>
    simp [after, exec, execNop, execCsClr, execCsUpd, execFbStart, execFbParam, execFbEnd, execFpClr, execFpAbort,
      execAckChk, execReserved9, execReservedA, execReservedB, execReservedC, execReservedD, execReservedE,
      execReservedF, execFpByte, execReset, accepted, rejected, emit, clearFp, resetBlock, ackVerdict, raise, takeByte,
      complete_eq] <;>
    (repeat' split) <;> simp

theorem after_csAcc_other {i : Instr} (h : i.hw ≠ .csg) (ha : i.hw ≠ .all) (s : State) :
    (after i s).csAcc = s.csAcc := by
  rcases s with ⟨cs, fb, ta, tx, fp, rb, rl, rs, ak, cr, pe, pa, se⟩
  cases i <;> first | exact absurd rfl h | exact absurd rfl ha | skip
  all_goals
    cases fb <;> cases fp <;> cases rs <;>
    simp [after, exec, execNop, execFbStart, execFbParam, execFbEnd, execFpClr, execFpAbort,
      execAckChk, execReserved9, execReservedA, execReservedB, execReservedC, execReservedD, execReservedE,
      execReservedF, execFpByte, accepted, rejected, emit, clearFp, ackVerdict, raise, takeByte, complete_eq] <;>
    (repeat' split) <;> simp

theorem after_fbView_other {i : Instr} (h : i.hw ≠ .fb) (ha : i.hw ≠ .all) (s : State) :
    fbView (after i s) = fbView s := by
  rcases s with ⟨cs, fb, ta, tx, fp, rb, rl, rs, ak, cr, pe, pa, se⟩
  cases i <;> first | exact absurd rfl h | exact absurd rfl ha | skip
  all_goals
    cases fp <;> cases rs <;>
    simp [fbView, after, exec, execNop, execCsClr, execCsUpd, execFpClr, execFpAbort,
      execAckChk, execReserved9, execReservedA, execReservedB, execReservedC, execReservedD, execReservedE,
      execReservedF, execFpByte, accepted, rejected, clearFp, ackVerdict, raise, takeByte, complete_eq] <;>
    (repeat' split) <;> simp

theorem after_fpView_other {i : Instr} (h : i.hw ≠ .fp) (ha : i.hw ≠ .all) (s : State) :
    fpView (after i s) = fpView s := by
  rcases s with ⟨cs, fb, ta, tx, fp, rb, rl, rs, ak, cr, pe, pa, se⟩
  cases i <;> first | exact absurd rfl h | exact absurd rfl ha | skip
  all_goals
    cases fb <;>
    simp [fpView, after, exec, execNop, execCsClr, execCsUpd, execFbStart, execFbParam, execFbEnd,
      execReserved9, execReservedA, execReservedB, execReservedC, execReservedD, execReservedE,
      execReservedF, accepted, rejected, emit]

theorem after_csAcc_congr (i : Instr) {s t : State} (h : s.csAcc = t.csAcc) : (after i s).csAcc = (after i t).csAcc := by
  by_cases hc : i.hw = .csg
  · cases i <;> cases hc
    · rfl
    · show s.csAcc ^^^ _ = t.csAcc ^^^ _
      rw [h]
  · by_cases ha : i.hw = .all
    · cases i <;> cases ha
      rfl
    · rw [after_csAcc_other hc ha, after_csAcc_other hc ha, h]

theorem after_fbView_congr (i : Instr) {s t : State} (h : fbView s = fbView t) :
    fbView (after i s) = fbView (after i t) := by
  by_cases hc : i.hw = .fb
  · rcases s with ⟨cs, fb, ta, tx, fp, rb, rl, rs, ak, cr, pe, pa, se⟩
    rcases t with ⟨cs', fb', ta', tx', fp', rb', rl', rs', ak', cr', pe', pa', se'⟩
    simp only [fbView, Prod.mk.injEq] at h
    obtain ⟨rfl, rfl, rfl⟩ := h
    cases i <;> cases hc
    all_goals cases fb <;> rfl
  · by_cases ha : i.hw = .all
    · cases i <;> cases ha
      rfl
    · rw [after_fbView_other hc ha, after_fbView_other hc ha, h]

theorem after_fpView_congr (i : Instr) {s t : State} (h : fpView s = fpView t) :
    fpView (after i s) = fpView (after i t) := by
  by_cases hc : i.hw = .fp
  · rcases s with ⟨cs, fb, ta, tx, fp, rb, rl, rs, ak, cr, pe, pa, se⟩
    rcases t with ⟨cs', fb', ta', tx', fp', rb', rl', rs', ak', cr', pe', pa', se'⟩
    simp only [fpView, Prod.mk.injEq] at h
    obtain ⟨rfl, rfl, rfl, rfl, rfl, rfl⟩ := h
    cases i <;> cases hc
    all_goals
      cases fp <;> cases rs <;>
      simp [fpView, after, exec, execFpClr, execFpAbort, execAckChk, execFpByte, accepted, rejected, clearFp,
        ackVerdict, raise, takeByte, complete_eq] <;>
      (repeat' split) <;> simp
  · by_cases ha : i.hw = .all
    · cases i <;> cases ha
      have hp : s.params = t.params := congrArg (fun v => v.2.2.2.2.2) h
      show ((_, _, _, _, _, s.params) : FpState × Bytes × Bytes × Status × Bool × Config.Params) = (_, _, _, _, _, t.params)
      rw [hp]
      rfl
    · rw [after_fpView_other hc ha, after_fpView_other hc ha, h]

/-- A sequence acts on a unit as the unit's own events do, for any view with the three facts above. -/
theorem afterAll_unit {α : Type} (u : Hw) (view : State → α)
    (other : ∀ i s, i.hw ≠ u → i.hw ≠ .all → view (after i s) = view s)
    (congr : ∀ i s t, view s = view t → view (after i s) = view (after i t)) (is : List Instr) (s t : State)
    (h : view s = view t) : view (afterAll is s) = view (afterAll (unitEvents u is) t) := by
  induction is generalizing s t with
  | nil => exact h
  | cons i is ih =>
    rw [afterAll_cons]
    by_cases hu : i.hw = u ∨ i.hw = .all
    · have he : unitEvents u (i :: is) = i :: unitEvents u is := by
        unfold unitEvents
        rw [List.filter_cons_of_pos]
        rcases hu with hu | hu <;> simp [hu]
      rw [he, afterAll_cons]
      exact ih _ _ (congr i s t h)
    · have he : unitEvents u (i :: is) = unitEvents u is := by
        unfold unitEvents
        rw [List.filter_cons_of_neg]
        simpa using hu
      rw [he]
      exact ih _ _ ((other i s (fun e => hu (.inl e)) (fun e => hu (.inr e))).trans h)

theorem afterAll_csAcc (is : List Instr) (s : State) :
    (afterAll is s).csAcc = (afterAll (unitEvents .csg is) s).csAcc :=
  afterAll_unit .csg State.csAcc (fun _ s h ha => after_csAcc_other h ha s) (fun i _ _ h => after_csAcc_congr i h)
    is s s rfl

theorem afterAll_fbView (is : List Instr) (s : State) :
    fbView (afterAll is s) = fbView (afterAll (unitEvents .fb is) s) :=
  afterAll_unit .fb fbView (fun _ s h ha => after_fbView_other h ha s) (fun i _ _ h => after_fbView_congr i h) is s s rfl

theorem afterAll_fpView (is : List Instr) (s : State) :
    fpView (afterAll is s) = fpView (afterAll (unitEvents .fp is) s) :=
  afterAll_unit .fp fpView (fun _ s h ha => after_fpView_other h ha s) (fun i _ _ h => after_fpView_congr i h) is s s rfl

end Sys2Proof.Machine
end

