-- ==== Sys2Proof/Laws/Streams.lean ====
section
/-! SUPPORT. What runs of received bytes and of parameters do, and which events of a request and of a response belong to
which unit. -/

namespace Sys2Proof.Machine

/-- Bytes that end nothing and fit are collected (R140). -/
theorem afterAll_rx_collects (bs : Bytes) (s : State) (h : s.fpState = .collect)
    (ht : hasTerminator (s.rxBuf ++ bs) = false)
    (hc : ∀ cap, s.params.rxCap = .finite cap → (s.rxBuf ++ bs).length ≤ cap) :
    fpView (afterAll (rxSeqEvents bs) s) = (.collect, s.rxBuf ++ bs, s.rxLine, s.rxStatus, s.ackOk, s.params) := by
  induction bs generalizing s with
  | nil => simp [afterAll, rxSeqEvents, fpView, h]
  | cons b bs ih =>
    have e : s.rxBuf ++ b :: bs = (s.rxBuf ++ [b]) ++ bs := by simp
    have hn : ¬ (b = 0x0D#8 ∧ ∃ line, s.rxBuf = line ++ [0x2A#8]) := by
      rintro ⟨rfl, line, hl⟩
      rw [hasTerminator_false_iff] at ht
      apply ht line.length
      rw [hl]; simp
    have hcap : s.params.rxCap ≠ .finite s.rxBuf.length := by
      intro hcc
      have := hc _ hcc
      simp at this
    have ha : after (.fpByte b) s = { s with rxBuf := s.rxBuf ++ [b], cmdReject := false } := by
      simp only [after, exec, execFpByte, takeByte_store h b hn hcap]; rfl
    rw [rxSeqEvents, List.map_cons, afterAll_cons, ha]
    have := ih { s with rxBuf := s.rxBuf ++ [b], cmdReject := false } h (by rw [← e]; exact ht)
      (by rw [← e]; exact hc)
    rw [rxSeqEvents] at this
    rw [this, ← e]

/-- Bytes after a latched result are dropped (R140). -/
theorem afterAll_rx_dropped (bs : Bytes) (s : State) (h : s.fpState = .done) :
    afterAll (rxSeqEvents bs) s = if bs = [] then s else { s with cmdReject := false } := by
  induction bs generalizing s with
  | nil => rfl
  | cons b bs ih =>
    have ha : after (.fpByte b) s = { s with cmdReject := false } := by
      simp only [after, exec, execFpByte, takeByte_done h]; rfl
    rw [rxSeqEvents, List.map_cons, afterAll_cons, ha]
    have := ih { s with cmdReject := false } h
    rw [rxSeqEvents] at this
    rw [this]
    simp

/-- A run of parameters is emitted and folded (R113). -/
theorem afterAll_params (bs : Bytes) (s : State) (h : s.fbState = .param) :
    fbView (afterAll (bs.map .fbParam) s) = (.param, s.txAcc ^^^ xorFold bs, s.txOut ++ bs) := by
  induction bs generalizing s with
  | nil => simp [afterAll, fbView, h]
  | cons b bs ih =>
    rcases s with ⟨cs, fb, ta, tx, fp, rb, rl, rs, ak, cr, pe, pa, se⟩
    cases h
    rw [List.map_cons, afterAll_cons, ih _ rfl, xorFold_cons]
    simp [after, exec, execFbParam, accepted, emit, BitVec.xor_assoc]

theorem afterAll_keeps (is : List Instr) (s : State) :
    (afterAll is s).params = s.params ∧ (afterAll is s).session = s.session ∧
      (afterAll is s).pending = s.pending := by
  induction is generalizing s with
  | nil => exact ⟨rfl, rfl, rfl⟩
  | cons i is ih =>
    obtain ⟨h1, h2, h3⟩ := after_keeps i s
    obtain ⟨g1, g2, g3⟩ := ih (after i s)
    exact ⟨g1.trans h1, g2.trans h2, g3.trans h3⟩

theorem unitEvents_append (u : Hw) (a b : List Instr) : unitEvents u (a ++ b) = unitEvents u a ++ unitEvents u b := by
  simp [unitEvents]

theorem unitEvents_fp_rx (bs : Bytes) : unitEvents .fp (rxSeqEvents bs) = rxSeqEvents bs := by
  unfold unitEvents rxSeqEvents
  rw [List.filter_eq_self]
  intro i hi
  obtain ⟨x, _, rfl⟩ := List.mem_map.mp hi
  simp [Instr.hw]

theorem unitEvents_fb_rx (bs : Bytes) : unitEvents .fb (rxSeqEvents bs) = [] := by
  unfold unitEvents rxSeqEvents
  rw [List.filter_eq_nil_iff]
  intro i hi
  obtain ⟨x, _, rfl⟩ := List.mem_map.mp hi
  simp [Instr.hw]

theorem buildEvents_hw {addr sig : Pair} {a b : Bytes} {i : Instr} (h : i ∈ buildEvents addr sig a b) :
    i.hw = .fb := by
  simp [buildEvents] at h
  rcases h with rfl | ⟨x, _, rfl⟩ | ⟨x, _, rfl⟩ | rfl <;> rfl

theorem unitEvents_fb_build (addr sig : Pair) (a b : Bytes) :
    unitEvents .fb (buildEvents addr sig a b) = buildEvents addr sig a b := by
  unfold unitEvents
  rw [List.filter_eq_self]
  intro i hi
  simp [buildEvents_hw hi]

theorem unitEvents_fp_build (addr sig : Pair) (a b : Bytes) : unitEvents .fp (buildEvents addr sig a b) = [] := by
  unfold unitEvents
  rw [List.filter_eq_nil_iff]
  intro i hi
  simp [buildEvents_hw hi]

/-- What every step keeps, every run keeps. -/
theorem stepN_keeps {P : State → Prop} (hstep : ∀ s t, P s → step s = .next t → P t) (k : Nat) {s t : State}
    (hs : P s) (h : stepN k s = .next t) : P t := by
  induction k generalizing s with
  | zero => cases h; exact hs
  | succ k ih =>
    rw [stepN] at h
    cases hu : step s with
    | next u =>
      rw [hu, andThen_next] at h
      exact ih (hstep s u hs hu) h
    | fault r => rw [hu] at h; cases h
    | refused r => rw [hu] at h; cases h

end Sys2Proof.Machine
end

