-- ==== Sys2Proof/Laws/Pins.lean ====
section
/-! SUPPORT. The spec lemmas of the pin-level wrapper: 2-byte outputs, `cmd_reject` of a cycle, the bytes taken, and a whole
clock cycle. -/

namespace Sys2Proof.Machine

/-- Every 2-byte output has two bytes (R20), so its 16 pins are its two characters (R70). -/
theorem twoByteOutputs_length (s : State) :
    (csHex s).length = 2 ∧ (rxFcsField s).length = 2 ∧ (rxAddr s).length = 2 ∧ (rxSig s).length = 2 := by
  refine ⟨rfl, ?_, ?_, ?_⟩
  · unfold rxFcsField
    split
    · simp [slice]; omega
    · rfl
  · unfold rxAddr
    split
    · rename_i h
      have h7 : 7 ≤ s.rxLine.length := of_decide_eq_true h
      simp [addrField, slice]; omega
    · rfl
  · unfold rxSig
    split
    · rename_i h
      have h7 : 7 ≤ s.rxLine.length := of_decide_eq_true h
      simp [sigField, slice]; omega
    · rfl

@[simp] theorem pinsOfTwo_two (c0 c1 : Byte) : pinsOfTwo [c0, c1] = c0 ++ c1 := rfl

theorem doPresented_of_decode {r : Raw} {i : Instr} (h : decode r = .ok i) (s : State) :
    doPresented r s = .next (after i s) := by
  rw [doPresented, h]; exact exec_eq i s

/-- Presentations that decode are done as their events are. -/
theorem doAllPresented_of_decode {rs : List Raw} {is : List Instr} (h : rs.map decode = is.map .ok) (s : State) :
    doAllPresented rs s = .next (afterAll is s) := by
  induction rs generalizing is s with
  | nil =>
    cases is with
    | nil => rfl
    | cons i is => cases h
  | cons r rs ih =>
    cases is with
    | nil => cases h
    | cons i is =>
      rw [List.map_cons, List.map_cons, List.cons.injEq] at h
      rw [doAllPresented, doPresented_of_decode h.1, andThen_next, ih h.2]; rfl

/-- What a cycle carries always decodes (R71, R74). -/
theorem cycleEvents_decode (c : Cycle) : ∃ is : List Instr, (cycleEvents c).map decode = is.map .ok := by
  obtain ⟨i, hi⟩ := decodeFields_total c.cmdOp c.cmdData
  have hc : decode (.cmd (cmdWord c.cmdOp c.cmdData)) = .ok i := (decode_cmdWord _ _).trans hi
  rcases c with ⟨rst, cv, cr, op, d, rv, rd⟩
  cases rst
  · cases hv : cv && cr <;> cases rv
    · exact ⟨[], by simp [cycleEvents, cycleCommand, cycleByte, hv]⟩
    · exact ⟨[.fpByte rd], by simp [cycleEvents, cycleCommand, cycleByte, hv]; rfl⟩
    · exact ⟨[i], by simp [cycleEvents, cycleCommand, cycleByte, hv]; exact hc⟩
    · exact ⟨[i, .fpByte rd], by simp [cycleEvents, cycleCommand, cycleByte, hv]; exact ⟨hc, rfl⟩⟩
  · exact ⟨[.reset], rfl⟩

/-- `cmd_reject` of a cycle is what its command's own event raises, whatever byte comes after it (R70, R76). -/
theorem cycleReject_of_command {c : Cycle} {i : Instr} (hr : c.rst = false) (hv : (c.cmdValid && c.cmdReady) = true)
    (hd : decode (.cmd (cmdWord c.cmdOp c.cmdData)) = .ok i) (s : State) :
    cycleReject c s = (after i s).cmdReject := by
  simp [cycleReject, hr, hv, hd, after_cmdReject]

/-- A cycle that takes no command shows `cmd_reject` 0 (R70). -/
theorem cycleReject_no_command {c : Cycle} (h : c.rst = true ∨ (c.cmdValid && c.cmdReady) = false) (s : State) :
    cycleReject c s = false := by
  rcases h with h | h <;> simp [cycleReject, h]

/-- A byte moves exactly when it is offered and the transport is ready (R70). -/
theorem txMoved_isSome (taken : Nat) (txReady : Bool) (s : State) :
    (txMoved taken txReady s).isSome = (txValid taken s && txReady) := by
  cases txReady <;> simp [txMoved, txData, txValid]
  by_cases h : taken < s.txOut.length <;> simp [h]

/-- Every clock cycle completes: the block does the cycle's events, and the ports show what their functions say. -/
theorem clockCycle_spec (c : Cycle) (txReady : Bool) (w : Wrapper) :
    ∃ is : List Instr, (cycleEvents c).map decode = is.map .ok ∧
      clockCycle c txReady w = .next (⟨afterAll is w.block, txTaken c.rst w.taken txReady w.block⟩,
        ⟨cycleReject c w.block, txMoved w.taken txReady w.block⟩) := by
  obtain ⟨is, h⟩ := cycleEvents_decode c
  exact ⟨is, h, by rw [clockCycle, doAllPresented_of_decode h, andThen_next]⟩

end Sys2Proof.Machine
end

