-- ==== Sys2Proof/Laws/Session.lean ====
section
/-! SUPPORT. The spec lemmas of the host operations: what a line read and a transaction amount to. -/

namespace Sys2Proof.Machine

/-- A line read ends as all the bytes followed by FP_ABORT would end: what comes after a result changes nothing (R175). -/
theorem receiveLine_spec (bs : Bytes) (s : State) :
    ∃ t, receiveLine bs s = .next t ∧ fpView t = fpView (afterAll (rxSeqEvents bs ++ [.fpAbort]) s) ∧
      fbView t = fbView s ∧ t.session = s.session ∧ t.csAcc = s.csAcc := by
  induction bs generalizing s with
  | nil =>
    rw [receiveLine]
    cases h : s.fpState
    · rw [if_neg (by simp [rxDone, h])]
      exact ⟨_, exec_eq _ _, rfl, after_fbView_other (by decide) (by decide) s, (after_keeps _ _).2.1,
        after_csAcc_other (by decide) (by decide) s⟩
    · rw [if_pos (by simp [rxDone, h])]
      refine ⟨_, rfl, ?_, rfl, rfl, rfl⟩
      show _ = fpView (after .fpAbort s)
      simp [after, exec, execFpAbort, h, accepted, fpView]
  | cons b bs ih =>
    rw [receiveLine]
    cases h : s.fpState
    · rw [if_neg (by simp [rxDone, h]), exec_eq, andThen_next]
      obtain ⟨t, h1, h2, h3, h4, h5⟩ := ih (after (.fpByte b) s)
      have n1 : (Instr.fpByte b).hw ≠ .fb := by simp [Instr.hw]
      have n2 : (Instr.fpByte b).hw ≠ .all := by simp [Instr.hw]
      have n3 : (Instr.fpByte b).hw ≠ .csg := by simp [Instr.hw]
      exact ⟨t, h1, h2, h3.trans (after_fbView_other n1 n2 s), h4.trans (after_keeps _ _).2.1,
        h5.trans (after_csAcc_other n3 n2 s)⟩
    · rw [if_pos (by simp [rxDone, h])]
      refine ⟨_, rfl, ?_, rfl, rfl, rfl⟩
      rw [afterAll_append, afterAll_rx_dropped _ _ h, if_neg (by simp)]
      show _ = fpView (after .fpAbort _)
      simp [after, exec, execFpAbort, h, accepted, fpView]

/-- The FP events a transaction amounts to: clear, the early bytes, the response if the request was written, and the
final FP_ABORT, which changes nothing once a line is latched (R175). -/
def exchangeEvents (x : Exchange) : List Instr :=
  .fpClr :: (rxSeqEvents x.early ++ (if x.writeOk then rxSeqEvents x.response else []) ++ [.fpAbort])

/-- A transaction on a closed session (R175 step 1). -/
theorem transmit_spec_closed (code : Pair) (a b : Bytes) (x : Exchange) {s : State} (h : s.session.isOpen = false) :
    transmit code a b x s = .next (⟨false, ⟨.stPortUnavailable, .portNotOpen⟩, []⟩,
      setSessionStatus ⟨.stPortUnavailable, .portNotOpen⟩ s) := by
  simp [transmit, h]

/-- A transaction on an open session: FB does the request, FP the exchange, and the result and the recorded texts are
taken from what FP latched (R175, R179). -/
theorem transmit_spec_open (code : Pair) (a b : Bytes) (x : Exchange) {s : State} (h : s.session.isOpen = true) :
    ∃ u, transmit code a b x s = .next (finishTransmit (buildRequest s.session.address code a b)
        (if x.writeOk then transmitStatus x.cause u.rxStatus else writeFaultStatus x.cause) u) ∧
      fbView u = fbView (afterAll (buildEvents s.session.address code a b) s) ∧
      fpView u = fpView (afterAll (exchangeEvents x) s) ∧ u.session = s.session := by
  unfold transmit
  rw [if_pos h]
  simp only [execAll_eq, andThen_next]
  generalize hs1 : afterAll (.fpClr :: (rxSeqEvents x.early ++ buildEvents s.session.address code a b)) s = s1
  have hfp : fpView s1 = fpView (afterAll (.fpClr :: rxSeqEvents x.early) s) := by
    rw [← hs1, afterAll_fpView]
    have : unitEvents .fp (.fpClr :: (rxSeqEvents x.early ++ buildEvents s.session.address code a b)) =
        .fpClr :: rxSeqEvents x.early := by
      show Instr.fpClr :: unitEvents .fp (rxSeqEvents x.early ++ buildEvents s.session.address code a b) = _
      rw [unitEvents_append, unitEvents_fp_rx, unitEvents_fp_build, List.append_nil]
    rw [this]
  have hfb : fbView s1 = fbView (afterAll (buildEvents s.session.address code a b) s) := by
    rw [← hs1, afterAll_fbView]
    have : unitEvents .fb (.fpClr :: (rxSeqEvents x.early ++ buildEvents s.session.address code a b)) =
        buildEvents s.session.address code a b := by
      show unitEvents .fb (rxSeqEvents x.early ++ buildEvents s.session.address code a b) = _
      rw [unitEvents_append, unitEvents_fb_rx, unitEvents_fb_build, List.nil_append]
    rw [this]
  have hse : s1.session = s.session := by rw [← hs1, (afterAll_keeps _ _).2.1]
  have hcong : ∀ is, fpView (afterAll is s1) =
      fpView (afterAll is (afterAll (.fpClr :: rxSeqEvents x.early) s)) := by
    intro is
    have := afterAll_unit .fp fpView (fun _ s h ha => after_fpView_other h ha s)
      (fun i _ _ h => after_fpView_congr i h) is s1 _ hfp
    rw [this, ← afterAll_fpView]
  cases hw : x.writeOk
  · rw [if_neg (by simp), exec_eq, andThen_next]
    refine ⟨_, rfl, (after_fbView_other (by decide) (by decide) s1).trans hfb, ?_, (after_keeps _ _).2.1.trans hse⟩
    rw [exchangeEvents, hw]
    simp only [Bool.false_eq_true, if_false, List.append_nil]
    rw [← List.cons_append, afterAll_append]
    exact hcong [.fpAbort]
  · rw [if_pos rfl]
    obtain ⟨t, h1, h2, h3, h4, h5⟩ := receiveLine_spec x.response s1
    rw [h1, andThen_next]
    refine ⟨t, rfl, h3.trans hfb, ?_, h4.trans hse⟩
    rw [h2, hcong, exchangeEvents, hw, if_pos rfl, List.append_assoc, ← List.cons_append, ← afterAll_append]

/-- What reading adds to a transaction: it passes a failure on, verifies a response and strips its checksum (R180). -/
theorem finishRead_cases (rs : OpResult × State) :
    (rs.1.success = false ∧ finishRead rs = rs) ∨
    (rs.1.success = true ∧ verify rs.1.data = true ∧
      finishRead rs = (⟨true, rs.1.status, bodyOf rs.1.data⟩, rs.2)) ∨
    (rs.1.success = true ∧ verify rs.1.data = false ∧
      finishRead rs = (⟨false, ⟨.stChecksumMismatch, .checksumError⟩, []⟩,
        setSessionStatus ⟨.stChecksumMismatch, .checksumError⟩ rs.2)) := by
  cases hs : rs.1.success <;> cases hv : verify rs.1.data <;> simp [finishRead, hs, hv]

end Sys2Proof.Machine
end

