-- ==== Sys2Proof/Tests/Slice0.lean ====
section
/-! SUPPORT. The model's own tests. Expected results are the vectors and programs of 95_test_vectors.md (V…, P…) and the
encodings of 30_encoding.md; the source of each stands beside it. Then one witness per statement with hypotheses. -/

namespace Sys2Proof.Tests

open Sys2Proof.Machine Sys2Proof.Safety

/-- The reset state with `RX_CAP` unbounded and `ACK_MODE_OFFSET = 5`, the values the vectors take. -/
def base : State := { State.reset with params := ⟨.unbounded, 5⟩ }

/-- A frame open: the state after step 1 of P1. -/
def opened : State := { base with fbState := .param, txAcc := 0x40#8, txOut := [0x40#8, 0x30#8, 0x31#8, 0x30#8, 0x31#8] }

/-- The line `"@01530146"` latched with `ST_OK` (V50). -/
def acked : State :=
  { base with
    fpState := .done, rxStatus := .stOk,
    rxLine := [0x40#8, 0x30#8, 0x31#8, 0x35#8, 0x33#8, 0x30#8, 0x31#8, 0x34#8, 0x36#8] }

/-- An open session. -/
def online : State := { base with session := { Session.created with isOpen := true } }

/-- One field of the state after an event. -/
def seen {α : Type} (o : Host.Outcome State Fault Refusal) (f : State → α) : Option α :=
  match o with
  | .next t => some (f t)
  | .fault _ => none
  | .refused _ => none

/-- The result of a host operation, without the status text, and the received text it records. -/
def reported (o : Host.Outcome (OpResult × State) Fault Refusal) : Option (Bool × Status × Bytes × Bytes) :=
  match o with
  | .next (r, t) => some (r.success, r.status.code, r.data, t.session.lastRx)
  | .fault _ => none
  | .refused _ => none

/-! ### Well-formedness refuses the ill-formed -/

/-- A low `rst` is no event (R71). -/
theorem test_wf_low_rst_refused : Raw.wellFormed (.pin false) = false := by decide
/-- `RX_CAP` is at least 3 (R5). -/
theorem test_wf_rxcap_two_refused : Config.RxCap.wellFormed (.finite 2) = false := by decide
theorem test_wf_rxcap_three_allowed : Config.RxCap.wellFormed (.finite 3) = true := by decide
theorem test_wf_params_refused : Config.Params.wellFormed ⟨.finite 0, 5⟩ = false := by decide
theorem test_wf_params_allowed : Config.Params.wellFormed ⟨.unbounded, 5⟩ = true := by decide

/-! ### Decoding words written out from 30_encoding.md R71 to R73 (V73 to V83) -/

theorem test_decode_nop : decode (.cmd 0b0000_11111111_11111111_11111111_11111111#36) = .ok .nop := by decide
theorem test_decode_csClr : decode (.cmd 0b0001_00000000_00000000_00000000_00000000#36) = .ok .csClr := by decide
/-- V25: only `cmd_data[7:0]` of 0xABCDEF12 is used. -/
theorem test_decode_csUpd : decode (.cmd 0b0010_10101011_11001101_11101111_00010010#36) = .ok (.csUpd 0x12#8) := by
  decide
/-- V76. -/
theorem test_decode_fbStart :
    decode (.cmd 0b0011_00110000_00110001_00110101_00110011#36) =
      .ok (.fbStart ⟨0x30#8, 0x31#8⟩ ⟨0x35#8, 0x33#8⟩) := by decide
/-- V77. -/
theorem test_decode_fbParam : decode (.cmd 0b0100_00000000_00000000_00000000_00110001#36) = .ok (.fbParam 0x31#8) := by
  decide
theorem test_decode_fbEnd : decode (.cmd 0b0101_00000000_00000000_00000000_00000000#36) = .ok .fbEnd := by decide
theorem test_decode_fpClr : decode (.cmd 0b0110_00000000_00000000_00000000_00000000#36) = .ok .fpClr := by decide
theorem test_decode_fpAbort : decode (.cmd 0b0111_00000000_00000000_00000000_00000000#36) = .ok .fpAbort := by decide
/-- V80. -/
theorem test_decode_ackChk :
    decode (.cmd 0b1000_00110101_00110011_00110000_00110010#36) =
      .ok (.ackChk ⟨0x35#8, 0x33#8⟩ ⟨0x30#8, 0x32#8⟩) := by decide
theorem test_decode_reserved9 : decode (.cmd 0x900000000#36) = .ok .reserved9 := by decide
theorem test_decode_reservedA : decode (.cmd 0xA00000000#36) = .ok .reservedA := by decide
theorem test_decode_reservedB : decode (.cmd 0xB00000000#36) = .ok .reservedB := by decide
theorem test_decode_reservedC : decode (.cmd 0xC00000000#36) = .ok .reservedC := by decide
theorem test_decode_reservedD : decode (.cmd 0xD00000000#36) = .ok .reservedD := by decide
theorem test_decode_reservedE : decode (.cmd 0xE00000000#36) = .ok .reservedE := by decide
theorem test_decode_reservedF : decode (.cmd 0xFFFFFFFFF#36) = .ok .reservedF := by decide
/-- V82, V83. -/
theorem test_decode_pins :
    decode (.rxb 0b01000000#8) = .ok (.fpByte 0x40#8) ∧ decode (.pin true) = .ok .reset ∧
    decode (.pin false) = .error .rstLow := by decide
/-- The rows of the table as the host numbers them, and a word with a bit above the 36. -/
theorem test_decodeTableWord :
    decodeTableWord 40 0x330313031 = some (.fbStart ⟨0x30#8, 0x31#8⟩ ⟨0x30#8, 0x31#8⟩) ∧
    decodeTableWord 40 0x1000000000 = none ∧ decodeTableWord 8 0 = some (.fpByte 0x00#8) ∧
    decodeTableWord 8 0x40 = some (.fpByte 0x40#8) ∧ decodeTableWord 8 1 = some .reset ∧
    decodeTableWord 1 1 = some .reset ∧ decodeTableWord 1 0 = none := by decide

/-! ### The checksum and the frame functions (Part B1 and B2) -/

/-- V15, V18, V20. -/
theorem test_xorFold :
    xorFold [0x40#8, 0x30#8, 0x31#8, 0x35#8, 0x33#8, 0x30#8, 0x31#8] = 0x46#8 ∧
    xorFold [0x41#8, 0x42#8] = 0x03#8 ∧ xorFold [0xFF#8, 0x0F#8] = 0xF0#8 := by decide
/-- V22, V23. -/
theorem test_hex2 :
    hex2 0x0A#8 = [0x30#8, 0x41#8] ∧ hex2 0x9F#8 = [0x39#8, 0x46#8] ∧ hex2 0xA0#8 = [0x41#8, 0x30#8] := by decide
/-- V24: `"4A"`, `"4a"` and `"4 "`. -/
theorem test_fcsEq :
    fcsEq [0x34#8, 0x41#8] 0x4A#8 = true ∧ fcsEq [0x34#8, 0x61#8] 0x4A#8 = false ∧
    fcsEq [0x34#8, 0x20#8] 0x40#8 = false := by decide
/-- V30: `"@0153000146*\r"`. -/
theorem test_buildRequest :
    buildRequest ⟨0x30#8, 0x31#8⟩ ⟨0x35#8, 0x33#8⟩ [0x30#8, 0x30#8] [0x30#8, 0x31#8] =
      [0x40#8, 0x30#8, 0x31#8, 0x35#8, 0x33#8, 0x30#8, 0x30#8, 0x30#8, 0x31#8, 0x34#8, 0x36#8, 0x2A#8, 0x0D#8] := by
  decide
/-- V5: `"@010140"` verifies, `"@020140"` does not, nor does the frame with its terminator. -/
theorem test_verify :
    verify [0x40#8, 0x30#8, 0x31#8, 0x30#8, 0x31#8, 0x34#8, 0x30#8] = true ∧
    verify [0x40#8, 0x30#8, 0x32#8, 0x30#8, 0x31#8, 0x34#8, 0x30#8] = false ∧
    verify [0x40#8, 0x30#8, 0x31#8, 0x30#8, 0x31#8, 0x34#8, 0x30#8, 0x2A#8, 0x0D#8] = false := by decide
/-- V38: the first `*` of `"**\r"` is data. -/
theorem test_splitLine : splitLine [0x2A#8, 0x2A#8, 0x0D#8, 0x41#8] = some ([0x2A#8], [0x41#8]) := by decide
/-- V46: fields at fixed offsets of `"@01\r01004D"`. -/
theorem test_fields :
    let s := { base with rxLine := [0x40#8, 0x30#8, 0x31#8, 0x0D#8, 0x30#8, 0x31#8, 0x30#8, 0x30#8, 0x34#8, 0x44#8] }
    rxAddr s = [0x30#8, 0x31#8] ∧ rxSig s = [0x0D#8, 0x30#8] ∧ rxPayload s = [0x31#8, 0x30#8, 0x30#8] ∧
    rxFcsOk s = true := by decide

/-! ### One event on a small state -/

/-- V27. -/
theorem test_nop_leaves_acc : seen (exec .nop { base with csAcc := 0x5A#8 }) State.csAcc = some 0x5A#8 := by decide
/-- R95: the accumulator is cleared while a frame is open. -/
theorem test_csClr : seen (exec .csClr { opened with csAcc := 0x5A#8 }) (fun t => (t.csAcc, t.txAcc)) =
    some (0x00#8, 0x40#8) := by decide
/-- V26: 0x40 then 0x30 gives 0x70. -/
theorem test_csUpd : seen (exec (.csUpd 0x30#8) { base with csAcc := 0x40#8 }) State.csAcc = some 0x70#8 := by decide
/-- P1 step 1. -/
theorem test_fbStart : exec (.fbStart ⟨0x30#8, 0x31#8⟩ ⟨0x30#8, 0x31#8⟩) base = .next opened := rfl
/-- V85: rejected while a frame is open. -/
theorem test_fbStart_rejected : seen (exec (.fbStart ⟨0x30#8, 0x32#8⟩ ⟨0x30#8, 0x31#8⟩) opened)
    (fun t => (t.cmdReject, t.txAcc, t.txOut.length)) = some (true, 0x40#8, 5) := by decide
/-- V32a: 0x2A after `"@0101"` folds to 0x6A. -/
theorem test_fbParam : seen (exec (.fbParam 0x2A#8) opened) (fun t => (t.txAcc, t.txOut.length)) =
    some (0x6A#8, 6) := by decide
/-- P7 step 1. -/
theorem test_fbParam_rejected : seen (exec (.fbParam 0x30#8) base) (fun t => (t.cmdReject, t.txOut)) =
    some (true, []) := by decide
/-- P1 step 2: `"@010140*\r"`. -/
theorem test_fbEnd : seen (exec .fbEnd opened) (fun t => (t.txOut, t.txAcc, t.fbState)) =
    some ([0x40#8, 0x30#8, 0x31#8, 0x30#8, 0x31#8, 0x34#8, 0x30#8, 0x2A#8, 0x0D#8], 0x40#8, .idle) := by decide
/-- P7 step 2. -/
theorem test_fbEnd_rejected : seen (exec .fbEnd base) (fun t => (t.cmdReject, t.txOut)) = some (true, []) := by decide
/-- V72. -/
theorem test_fpClr : seen (exec .fpClr acked) (fun t => (t.fpState, t.rxStatus, t.rxLine)) =
    some (.collect, .stNone, []) := by decide
/-- V66: `"@0101"` then FP_ABORT. -/
theorem test_fpAbort : seen (exec .fpAbort { base with rxBuf := [0x40#8, 0x30#8, 0x31#8, 0x30#8, 0x31#8] })
    (fun t => (t.fpState, t.rxStatus, t.rxBuf, t.rxLine)) = some (.done, .stTransportFault, [], []) := by decide
/-- V69: a late timer loses. -/
theorem test_fpAbort_late : seen (exec .fpAbort acked) (fun t => (t.rxStatus, t.rxLine.length)) =
    some (.stOk, 9) := by decide
/-- V50. -/
theorem test_ackChk_match : seen (exec (.ackChk ⟨0x35#8, 0x33#8⟩ ⟨0x30#8, 0x31#8⟩) acked)
    (fun t => (t.ackOk, t.rxStatus)) = some (true, .stOk) := by decide
/-- V56: with offset 7 the mode field would reach into the checksum field. -/
theorem test_ackChk_too_short :
    seen (exec (.ackChk ⟨0x35#8, 0x33#8⟩ ⟨0x30#8, 0x31#8⟩) { acked with params := ⟨.unbounded, 7⟩ })
      (fun t => (t.ackOk, t.rxStatus)) = some (false, .stAckMismatch) := by decide
/-- V81, for each reserved opcode. -/
theorem test_reserved_rejected :
    [Instr.reserved9, .reservedA, .reservedB, .reservedC, .reservedD, .reservedE, .reservedF].map
      (fun i => seen (exec i acked) (fun t => (t.cmdReject, t.rxStatus))) = List.replicate 7 (some (true, .stOk)) := by
  decide
/-- V62: with `RX_CAP = 4` the line `"ABC"` still completes from a full buffer. -/
theorem test_fpByte_full_completes :
    seen (exec (.fpByte 0x0D#8) { base with params := ⟨.finite 4, 5⟩, rxBuf := [0x41#8, 0x42#8, 0x43#8, 0x2A#8] })
      (fun t => (t.rxStatus, t.rxLine)) = some (.stChecksumMismatch, [0x41#8, 0x42#8, 0x43#8]) := by decide
/-- V63: the same with `"ABCD"` in the buffer is an overrun. -/
theorem test_fpByte_overrun :
    seen (exec (.fpByte 0x0D#8) { base with params := ⟨.finite 4, 5⟩, rxBuf := [0x41#8, 0x42#8, 0x43#8, 0x44#8] })
      (fun t => (t.rxStatus, t.rxLine, t.fpState)) = some (.stOverrun, [], .done) := by decide
/-- P7 step 7. -/
theorem test_reset : exec .reset { opened with cmdReject := true } = .next base := rfl

/-! ### One host operation (Part B6) -/

/-- V89: `"@01010040*\r"` gives the body `"@010100"`. -/
theorem test_readRegister_ok :
    reported (readRegister ⟨0x30#8, 0x31#8⟩ [] []
      ⟨[], true, [0x40#8, 0x30#8, 0x31#8, 0x30#8, 0x31#8, 0x30#8, 0x30#8, 0x34#8, 0x30#8, 0x2A#8, 0x0D#8], .timeout⟩ online) =
    some (true, .stOk, [0x40#8, 0x30#8, 0x31#8, 0x30#8, 0x31#8, 0x30#8, 0x30#8],
      [0x40#8, 0x30#8, 0x31#8, 0x30#8, 0x31#8, 0x30#8, 0x30#8, 0x34#8, 0x30#8]) := by decide
/-- V88: `"@01010041*\r"` is "checksum error", the raw response kept. -/
theorem test_readRegister_checksum :
    reported (readRegister ⟨0x30#8, 0x31#8⟩ [] []
      ⟨[], true, [0x40#8, 0x30#8, 0x31#8, 0x30#8, 0x31#8, 0x30#8, 0x30#8, 0x34#8, 0x31#8, 0x2A#8, 0x0D#8], .timeout⟩ online) =
    some (false, .stChecksumMismatch, [], [0x40#8, 0x30#8, 0x31#8, 0x30#8, 0x31#8, 0x30#8, 0x30#8, 0x34#8, 0x31#8]) := by
  decide

/-- D22 (d): the received text is empty after a write fault, also with an early line `"00"` latched. -/
theorem test_write_fault_text_empty :
    reported (transmit ⟨0x30#8, 0x31#8⟩ [] [] ⟨[0x30#8, 0x30#8, 0x2A#8, 0x0D#8], false, [], .timeout⟩ online) =
    some (false, .stTransportFault, [], []) := by decide

/-! ### The pins, and where a run may end -/

/-- V85 with a received byte in the same cycle: the cycle still shows `cmd_reject` (R70, R76). -/
theorem test_cycle_shows_reject :
    (match clockCycle ⟨false, true, true, 0x3#4, 0x30323031#32, true, 0x41#8⟩ true ⟨opened, 5⟩ with
      | .next (w, o) => some (o.cmdReject, o.txByte, w.taken, w.block.rxBuf)
      | .fault _ => none
      | .refused _ => none) = some (true, none, 5, [0x41#8]) := by decide
/-- R70: the next byte of `"@0101"` moves when the transport is ready. -/
theorem test_cycle_moves_byte :
    (match clockCycle ⟨false, false, true, 0x0#4, 0#32, false, 0x00#8⟩ true ⟨opened, 2⟩ with
      | .next (w, o) => some (o.txByte, w.taken)
      | .fault _ => none
      | .refused _ => none) = some (some 0x31#8, 3) := by decide
/-- R70: the first character in bits [15:8], for the field `"46"` and the address `"01"` of V50. -/
theorem test_output_pins :
    (outputPins acked).rxFcsField = 0x3436#16 ∧ (outputPins acked).rxAddr = 0x3031#16 ∧
    (outputPins acked).rxSig = 0x3533#16 ∧ (outputPins acked).csHex = 0x3030#16 := by decide
/-- R253: a run that ends in `FB_PARAM`, or in `FP_COLLECT` after a request was sent, violates the host contract. -/
theorem test_run_ends :
    contractKept .between base [.fpClr, .fbStart ⟨0x30#8, 0x31#8⟩ ⟨0x30#8, 0x31#8⟩] = false ∧
    contractKept .between base [.fpClr, .fbStart ⟨0x30#8, 0x31#8⟩ ⟨0x30#8, 0x31#8⟩, .fbEnd] = false ∧
    contractKept .between base [.fpClr, .fbStart ⟨0x30#8, 0x31#8⟩ ⟨0x30#8, 0x31#8⟩, .fbEnd, .fpAbort] = true := by
  decide

/-- R262: `RESET` must not leave a frame open, nor (R176, log 24) a request without its result. -/
theorem test_reset_ends_nothing_early :
    let start : List Instr := [.fpClr, .fbStart ⟨0x30#8, 0x31#8⟩ ⟨0x30#8, 0x31#8⟩]
    contractKept .between base (start ++ [.reset]) = false ∧
    contractKept .between base (start ++ [.fbEnd, .reset]) = false ∧
    contractKept .between base (start ++ [.fbEnd, .fpAbort, .reset]) = true := by decide
/-- R173, R176, log 30: a host that cleared by itself may clear again at the start of its transaction. -/
theorem test_lone_clear :
    contractKept .between base [.fpClr, .fpClr, .fbStart ⟨0x30#8, 0x31#8⟩ ⟨0x30#8, 0x31#8⟩, .fbEnd, .fpAbort] = true ∧
    contractKept .between base [.fpClr, .fbStart ⟨0x30#8, 0x31#8⟩ ⟨0x30#8, 0x31#8⟩, .fbEnd, .fpClr, .fpAbort] = false := by
  decide

/-! ### Witnesses: for each statement with hypotheses, a state and operands that meet them -/

theorem witness_StepRunsTheDecodedEvent :
    State.pending { base with pending := [.rxb 0x41#8] } = [.rxb 0x41#8] ∧ decode (.rxb 0x41#8) = .ok (.fpByte 0x41#8) ∧
    Instr.wellFormed (.fpByte 0x41#8) = true := by decide

theorem witness_StepStopsOnlyWithoutAnEvent :
    base.pending = [] ∧ State.pending { base with pending := [.pin false] } = .pin false :: [] ∧
    (State.pending { base with pending := [.pin true] } = [.pin true] ∧ Raw.pin true ≠ .pin false) := by decide

/-- A word of CS_UPD with every ignored bit set. -/
theorem witness_DecodeInvertsEncode :
    Instr.wellFormed (.csUpd 0x12#8) = true ∧ encode (.csUpd 0x12#8) = .cmd 0x200000012#36 ∧
    0x2FFFFFF12#36 &&& operandMask (.csUpd 0x12#8) = 0x200000012#36 &&& operandMask (.csUpd 0x12#8) := by decide

/-- Each of the four cases of R76, and a command that is none of them. -/
theorem witness_RejectedCommandsChangeNothing :
    (9 ≤ (0x9#4).toNat ∧ decode (.cmd (cmdWord 0x9#4 0#32)) = .ok .reserved9) ∧
    opened.fbState = .param ∧ base.fbState = .idle ∧ base.fpState = .collect ∧
    ¬ ((∃ (op : BitVec 4) (d : BitVec 32), 9 ≤ op.toNat ∧ decode (.cmd (cmdWord op d)) = .ok .nop) ∨
      ((∃ addr sig, Instr.nop = .fbStart addr sig) ∧ base.fbState = .param) ∨
      (((∃ b, Instr.nop = .fbParam b) ∨ Instr.nop = .fbEnd) ∧ base.fbState = .idle) ∨
      ((∃ sig mode, Instr.nop = .ackChk sig mode) ∧ base.fpState = .collect)) := by
  refine ⟨by decide, rfl, rfl, rfl, ?_⟩
  rintro (⟨op, d, h, e⟩ | ⟨⟨_, _, e⟩, _⟩ | ⟨⟨_, e⟩ | e, _⟩ | ⟨⟨_, _, e⟩, _⟩)
  · rw [decode_cmdWord] at e
    unfold decodeFields at e
    have hlt := op.isLt
    generalize op.toNat = n at h hlt e
    interval_cases n <;> cases e
  all_goals cases e

theorem witness_XorFoldLaws :
    [0x41#8, 0x42#8].Perm [0x42#8, 0x41#8] ∧ ([0x41#8, 0x42#8] : Bytes)[1]? = some 0x42#8 ∧ (0x43#8 : Byte) ≠ 0x42#8 ∧
    ((0 : Nat) ≠ 1 ∧ ([0x41#8, 0x42#8] : Bytes)[0]? = some 0x41#8) :=
  ⟨List.Perm.swap _ _ _, by decide, by decide, by decide⟩

/-- CSUM `"@0"` with events of FB and FP between its own, and the run of updates alone. -/
theorem witness_CsumComputesTheChecksum :
    unitEvents .csg [.csClr, .fbEnd, .csUpd 0x40#8, .fpByte 0x31#8, .csUpd 0x30#8] = csumEvents [0x40#8, 0x30#8] ∧
    unitEvents .csg [.nop, .csUpd 0x40#8, .fpClr] = [0x40#8].map .csUpd := by decide

theorem witness_FbStartOpensAFrame :
    base.fbState = .idle ∧ opened.fbState = .param ∧
    exec (.fbStart ⟨0x30#8, 0x31#8⟩ ⟨0x30#8, 0x31#8⟩) base = .next opened := ⟨rfl, rfl, rfl⟩

theorem witness_FbParamEmitsItsByte : opened.fbState = .param ∧ base.fbState = .idle := by decide

theorem witness_FbEndClosesTheFrame :
    opened.fbState = .param ∧ base.fbState = .idle ∧ exec .fbEnd opened = .next (after .fbEnd opened) :=
  ⟨rfl, rfl, rfl⟩

theorem witness_BuildRequestIsWellFormed :
    ([0x40#8, 0x30#8, 0x31#8, 0x35#8, 0x33#8, 0x30#8] : Bytes) =
      [0x40#8] ++ Pair.bytes ⟨0x30#8, 0x31#8⟩ ++ Pair.bytes ⟨0x35#8, 0x33#8⟩ ++ [] ++ [0x30#8] := by decide

/-- BUILD "01","53","0","1" with CSG and FP events between; the second part is one split of it. -/
theorem witness_BuildEmitsTheRequest :
    let is : List Instr := [.csClr, .fbStart ⟨0x30#8, 0x31#8⟩ ⟨0x35#8, 0x33#8⟩, .fpByte 0x40#8, .fbParam 0x30#8,
      .fbParam 0x31#8, .nop, .fbEnd]
    base.fbState = .idle ∧
    unitEvents .fb is = buildEvents ⟨0x30#8, 0x31#8⟩ ⟨0x35#8, 0x33#8⟩ [0x30#8] [0x31#8] ∧
    is = [.csClr] ++ .fbStart ⟨0x30#8, 0x31#8⟩ ⟨0x35#8, 0x33#8⟩ ::
      [.fpByte 0x40#8, .fbParam 0x30#8, .fbParam 0x31#8, .nop, .fbEnd] ∧
    (Instr.fbStart ⟨0x30#8, 0x31#8⟩ ⟨0x35#8, 0x33#8⟩).hw = .fb ∧ execAll [.csClr] base = .next base ∧
    (∃ v, exec (.fbStart ⟨0x30#8, 0x31#8⟩ ⟨0x35#8, 0x33#8⟩) base = .next v) :=
  ⟨rfl, by decide, rfl, rfl, rfl, ⟨_, exec_eq _ _⟩⟩

theorem witness_TransmitTraceOnlyGrows :
    (exec .fbEnd opened = .next (after .fbEnd opened) ∧ Instr.fbEnd ≠ .reset) ∧
    (exec .nop base = .next base ∧ Instr.nop.hw ≠ .fb) := ⟨⟨rfl, by decide⟩, rfl, by decide⟩

/-- The last body byte of the line of `"@010140*\r"`. -/
theorem witness_BuiltRequestVerifies :
    4 + 2 < (lineOf (buildRequest ⟨0x30#8, 0x31#8⟩ ⟨0x30#8, 0x31#8⟩ [] [])).length ∧
    (lineOf (buildRequest ⟨0x30#8, 0x31#8⟩ ⟨0x30#8, 0x31#8⟩ [] []))[4]? = some 0x31#8 ∧ (0x32#8 : Byte) ≠ 0x31#8 := by
  decide

/-- A line of one character, one of two, and a field of `"4a"`. -/
theorem witness_VerifyComparesTheLastTwoCharacters :
    ([0x34#8] : Bytes).length < 2 ∧ ([0x30#8, 0x30#8] : Bytes).length = 2 ∧ (∀ n, 0x61#8 ≠ hexDigit n) := by decide

/-- Lines of two characters that verify and that do not, and one of one character. -/
theorem witness_DecodeYieldsTheBody :
    rxFcsOk { base with rxLine := [0x30#8, 0x30#8] } = true ∧ rxFcsOk { base with rxLine := [0x30#8, 0x31#8] } = false ∧
    State.rxLine { base with rxLine := [0x30#8, 0x30#8] } = [] ++ [0x30#8, 0x30#8] ∧
    (State.rxLine { base with rxLine := [0x41#8] }).length < 2 := by decide

/-- A line of 7 bytes and one of 6. -/
theorem witness_FieldOutputsFollowTheLayout :
    State.rxLine { base with rxLine := [0x40#8, 0x30#8, 0x31#8, 0x30#8, 0x31#8, 0x34#8, 0x30#8] } =
      [0x40#8, 0x30#8, 0x31#8, 0x30#8, 0x31#8] ++ [] ++ [0x34#8, 0x30#8] ∧
    (State.rxLine { base with rxLine := [0x40#8, 0x30#8, 0x31#8, 0x30#8, 0x34#8, 0x30#8] }).length < 7 := by decide

/-- Each case of R140 at a buffer of `RX_CAP = 3` bytes: full with a `*` at its end, full without, and one byte short. -/
theorem witness_FpByteCollectsCompletesOrOverruns :
    let full : State := { base with params := ⟨.finite 3, 5⟩, rxBuf := [0x41#8, 0x42#8, 0x2A#8] }
    let plain : State := { base with params := ⟨.finite 3, 5⟩, rxBuf := [0x41#8, 0x42#8, 0x43#8] }
    let short : State := { base with params := ⟨.finite 3, 5⟩, rxBuf := [0x41#8, 0x42#8] }
    acked.fpState = .done ∧ (full.fpState = .collect ∧ full.rxBuf = [0x41#8, 0x42#8] ++ [0x2A#8]) ∧
    (plain.fpState = .collect ∧ ¬ ((0x41#8 : Byte) = 0x0D#8 ∧ ∃ line, plain.rxBuf = line ++ [0x2A#8]) ∧
      plain.params.rxCap = .finite plain.rxBuf.length) ∧
    (short.fpState = .collect ∧ ¬ ((0x41#8 : Byte) = 0x0D#8 ∧ ∃ line, short.rxBuf = line ++ [0x2A#8]) ∧
      short.params.rxCap ≠ .finite short.rxBuf.length) :=
  ⟨rfl, ⟨rfl, rfl⟩, ⟨rfl, fun h => absurd h.1 (by decide), rfl⟩, rfl, fun h => absurd h.1 (by decide), by decide⟩

theorem witness_FpClrForgetsEverythingReceived : exec .fpClr acked = .next (after .fpClr acked) := rfl

theorem witness_FpAbortLatchesATransportFault :
    base.fpState = .collect ∧ acked.fpState = .done ∧ exec .fpAbort base = .next (after .fpAbort base) :=
  ⟨rfl, rfl, rfl⟩

/-- V50, V51, V54 and a state that is still collecting; the mode field of V50 ends where the body ends. -/
theorem witness_AckChkComparesTheEchoedFields :
    let body := slice acked.rxLine 0 (acked.rxLine.length - 2)
    base.fpState = .collect ∧ acked.fpState = .done ∧ acked.rxStatus = .stOk ∧ ¬ acked.rxLine.length < 2 ∧
    (3 + 2 ≤ body.length ∧ slice body 3 (3 + 2) = [0x35#8, 0x33#8] ∧ 5 + 2 ≤ body.length ∧
      slice body 5 (5 + 2) = [0x30#8, 0x31#8]) ∧ slice body 5 (5 + 2) ≠ [0x30#8, 0x32#8] ∧
    State.fpState { acked with rxStatus := .stChecksumMismatch } = .done ∧
    ¬ (Status.stChecksumMismatch = .stOk ∨ Status.stChecksumMismatch = .stAckMismatch) := by decide

theorem witness_ReceivedStreamIsSplitAtItsTerminator : base.params.rxCap = .unbounded := rfl

/-- RECV of the line `"00"` in a buffer of exactly 3 bytes, with events of CSG and FB between. -/
theorem witness_RecvLatchesTheLine :
    let s : State := { base with params := ⟨.finite 3, 5⟩ }
    hasTerminator [0x30#8, 0x30#8] = false ∧
    (∀ cap, s.params.rxCap = .finite cap → ([0x30#8, 0x30#8] : Bytes).length + 1 ≤ cap) ∧
    unitEvents .fp [.fpClr, .fpByte 0x30#8, .csClr, .fpByte 0x30#8, .fpByte 0x2A#8, .fbEnd, .fpByte 0x0D#8] =
      recvEvents ([0x30#8, 0x30#8] ++ [0x2A#8, 0x0D#8]) :=
  ⟨rfl, fun _ h => by cases h; decide, by decide⟩

/-- The request `"@010140*\r"` in a buffer of exactly 8 bytes. -/
theorem witness_EmittedRequestIsReceivedBack :
    let s : State := { base with params := ⟨.finite 8, 5⟩ }
    hasTerminator ([0x40#8] ++ Pair.bytes ⟨0x30#8, 0x31#8⟩ ++ Pair.bytes ⟨0x30#8, 0x31#8⟩ ++ [] ++ []) = false ∧
    (∀ cap, s.params.rxCap = .finite cap →
      (lineOf (buildRequest ⟨0x30#8, 0x31#8⟩ ⟨0x30#8, 0x31#8⟩ [] [])).length + 1 ≤ cap) :=
  ⟨by decide, fun _ h => by cases h; decide⟩

/-- FP_ABORT latching, FP_CLR leaving, ACK_CHK changing a verdict. -/
theorem witness_OnlyTheNamedEventsMoveFp :
    (base.fpState = .collect ∧ exec .fpAbort base = .next (after .fpAbort base) ∧
      (after .fpAbort base).fpState = .done) ∧
    (acked.fpState = .done ∧ exec .fpClr acked = .next (after .fpClr acked) ∧
      (after .fpClr acked).fpState = .collect) ∧
    (let i : Instr := .ackChk ⟨0x35#8, 0x33#8⟩ ⟨0x30#8, 0x32#8⟩;
      exec i acked = .next (after i acked) ∧ (after i acked).fpState = .done ∧
      (after i acked).rxStatus ≠ acked.rxStatus) :=
  ⟨⟨rfl, rfl, rfl⟩, ⟨rfl, rfl, rfl⟩, rfl, rfl, by decide⟩

theorem witness_RepeatedEvents :
    exec (.fbStart ⟨0x30#8, 0x31#8⟩ ⟨0x30#8, 0x31#8⟩) base = .next opened ∧
    exec .fbEnd opened = .next (after .fbEnd opened) := ⟨rfl, rfl⟩

theorem witness_StaleResultStaysWithoutClear : acked.fpState = .done := rfl

theorem witness_ResetEventRestoresEveryRegister :
    exec .reset opened = .next base ∧ Cycle.rst ⟨true, true, false, 0x1#4, 0#32, true, 0x40#8⟩ = true := ⟨rfl, rfl⟩

/-- A state with the invariant and an event waiting, so that the step answers a next state. -/
theorem witness_StepKeepsInv :
    let s : State := { base with pending := [.rxb 0x41#8] }
    Inv s ∧ step s = .next (after (.fpByte 0x41#8) base) :=
  ⟨{  bufWithinCap := fun _ _ => Nat.zero_le _
      lineWithinCap := fun _ _ => Nat.zero_le _
      doneBufEmpty := fun _ => rfl
      collectCleared := fun _ => ⟨rfl, rfl, rfl⟩
      doneHasStatus := fun h => by cases h
      okVerified := fun h => by cases h
      failedLineEmpty := fun _ => rfl
      ackMeansOk := fun h => by cases h
      mismatchVerified := fun h => by cases h
      portStatusNever := fun h => by cases h
      bufNoTerminator := rfl
      lineNoTerminator := rfl
      txShape := ⟨[], by simp, rfl, rfl⟩ }, rfl⟩

theorem witness_EventsLeaveOtherUnitsAlone :
    exec .csClr acked = .next (after .csClr acked) ∧ Instr.csClr.hw ≠ .all := ⟨rfl, by decide⟩

theorem witness_EventsOfDifferentUnitsCommute :
    Instr.csClr.hw ≠ Instr.fpClr.hw ∧ Instr.csClr.hw ≠ .all ∧ Instr.fpClr.hw ≠ .all := by decide

/-- A read of the whole line and one of one byte more. -/
theorem witness_MemReadStaysInsideTheLine :
    0 + 9 ≤ acked.rxLine.length ∧ acked.rxLine.length < 9 + 1 ∧
    (exec .csClr acked = .next (after .csClr acked) ∧ Instr.csClr.hw ≠ .fp ∧ Instr.csClr.hw ≠ .all) :=
  ⟨by decide, by decide, rfl, by decide, by decide⟩

/-- One cycle for each clause of R74. -/
theorem witness_CycleOrdersCommandBeforeByte :
    Cycle.rst ⟨true, true, false, 0x1#4, 0#32, true, 0x40#8⟩ = true ∧
    cycleEvents ⟨false, true, true, 0x1#4, 0#32, true, 0x40#8⟩ = [.cmd 0x100000000#36, .rxb 0x40#8] ∧
    cycleEvents ⟨false, true, true, 0x1#4, 0#32, false, 0x40#8⟩ = [.cmd 0x100000000#36] ∧
    cycleEvents ⟨false, true, false, 0x1#4, 0#32, true, 0x40#8⟩ = [.rxb 0x40#8] ∧
    cycleEvents ⟨false, false, true, 0x1#4, 0#32, false, 0x40#8⟩ = [] := by decide

/-- FP_ABORT, and FP_CLR, in the cycle of a carriage return that would complete a line. -/
theorem witness_CommandWinsOverTheByteOfItsCycle :
    let s : State := { base with rxBuf := [0x2A#8] }
    s.pending = [] ∧ s.params.wellFormed = true ∧ s.fpState = .collect ∧
    (let c : Cycle := ⟨false, true, true, 0x7#4, 0#32, true, 0x0D#8⟩;
      c.rst = false ∧ c.cmdValid = true ∧ c.cmdReady = true ∧ c.rxValid = true ∧ c.cmdOp = 0x7#4) ∧
    Cycle.cmdOp ⟨false, true, true, 0x6#4, 0#32, true, 0x0D#8⟩ = 0x6#4 := by decide

theorem witness_OpenIsANoOpFailureWhenOpen : online.session.isOpen = true ∧ base.session.isOpen = false := by decide

theorem witness_CloseAlwaysLeavesTheSessionClosed : base.session.isOpen = false ∧ online.session.isOpen = true := by decide

theorem witness_ClosedSessionSendsNothing : base.session.isOpen = false := rfl

/-- The line `"00"` in a buffer of exactly 3 bytes, its first character early, on an open session with an idle builder. -/
theorem witness_TransmitDeliversTheLine :
    let s : State := { online with params := ⟨.finite 3, 5⟩ }
    let x : Exchange := ⟨[0x30#8], true, [0x30#8, 0x2A#8, 0x0D#8, 0x41#8], .timeout⟩
    s.session.isOpen = true ∧ s.fbState = .idle ∧ ([0x30#8, 0x30#8] : Bytes) ≠ [] ∧
    hasTerminator [0x30#8, 0x30#8] = false ∧
    (∀ cap, s.params.rxCap = .finite cap → ([0x30#8, 0x30#8] : Bytes).length + 1 ≤ cap) ∧ x.writeOk = true ∧
    x.early ++ x.response = [0x30#8, 0x30#8] ++ [0x2A#8, 0x0D#8] ++ [0x41#8] :=
  ⟨rfl, rfl, by decide, rfl, fun _ h => by cases h; decide, rfl, rfl⟩

/-- In a buffer of exactly 3 bytes: three bytes without a terminator, the empty line, four bytes without one, and a failed
write. -/
theorem witness_TransmitFailsWithoutALine :
    let s : State := { online with params := ⟨.finite 3, 5⟩ }
    let full : Exchange := ⟨[0x41#8], true, [0x42#8, 0x2A#8], .timeout⟩
    let empty : Exchange := ⟨[], true, [0x2A#8, 0x0D#8, 0x41#8], .timeout⟩
    let longer : Exchange := ⟨[0x41#8], true, [0x42#8, 0x43#8, 0x2A#8, 0x0D#8], .timeout⟩
    s.session.isOpen = true ∧ s.fbState = .idle ∧
    (full.writeOk = true ∧ hasTerminator (full.early ++ full.response) = false ∧
      ∀ cap, s.params.rxCap = .finite cap → (full.early ++ full.response).length ≤ cap) ∧
    (empty.writeOk = true ∧ s.params.wellFormed = true ∧
      empty.early ++ empty.response = [0x2A#8, 0x0D#8] ++ [0x41#8]) ∧
    (longer.writeOk = true ∧ s.params.rxCap = .finite 3 ∧ 3 < (longer.early ++ longer.response).length ∧
      hasTerminator ((longer.early ++ longer.response).take (3 + 1)) = false) ∧
    Exchange.writeOk ⟨[], false, [], .otherFault⟩ = false :=
  ⟨rfl, rfl, ⟨rfl, rfl, fun _ h => by cases h; decide⟩, ⟨rfl, rfl, rfl⟩, ⟨rfl, rfl, by decide, rfl⟩, rfl⟩

theorem witness_ReadRegisterSucceedsExactlyOnOk :
    online.session.isOpen = true ∧ Exchange.writeOk ⟨[], true, [0x30#8, 0x30#8, 0x2A#8, 0x0D#8], .timeout⟩ = true := by
  decide

/-- The acknowledgement `"@01530146"`, its head early, and one that does not verify. -/
theorem witness_SetOperationModeChecksTwice :
    let x : Exchange := ⟨[0x40#8], true, acked.rxLine.drop 1 ++ [0x2A#8, 0x0D#8], .timeout⟩
    let bad : Exchange := ⟨[], true, [0x30#8, 0x31#8, 0x2A#8, 0x0D#8], .timeout⟩
    online.session.isOpen = true ∧ acked.rxLine ≠ [] ∧ hasTerminator acked.rxLine = false ∧
    (∀ cap, online.params.rxCap = .finite cap → acked.rxLine.length + 1 ≤ cap) ∧ x.writeOk = true ∧
    x.early ++ x.response = acked.rxLine ++ [0x2A#8, 0x0D#8] ++ [] ∧ verify acked.rxLine = true ∧
    ackMatch online.params.ackModeOffset acked.rxLine ⟨0x35#8, 0x33#8⟩ ⟨0x30#8, 0x32#8⟩ = false ∧
    (verify [0x30#8, 0x31#8] = false ∧ hasTerminator [0x30#8, 0x31#8] = false ∧ bad.writeOk = true ∧
      bad.early ++ bad.response = [0x30#8, 0x31#8] ++ [0x2A#8, 0x0D#8] ++ []) :=
  ⟨rfl, by decide, by decide, fun _ h => by (cases h), rfl, by decide, by decide, by decide, by decide⟩

theorem witness_WeakWritesIgnoreTheChecksum :
    let x : Exchange := ⟨[0x30#8], true, [0x31#8, 0x2A#8, 0x0D#8], .timeout⟩
    online.session.isOpen = true ∧ ([0x30#8, 0x31#8] : Bytes) ≠ [] ∧ hasTerminator [0x30#8, 0x31#8] = false ∧
    (∀ cap, online.params.rxCap = .finite cap → ([0x30#8, 0x31#8] : Bytes).length + 1 ≤ cap) ∧ x.writeOk = true ∧
    x.early ++ x.response = [0x30#8, 0x31#8] ++ [0x2A#8, 0x0D#8] ++ [] :=
  ⟨rfl, by decide, rfl, fun _ h => by (cases h), rfl, rfl⟩

/-- Two states that differ in the parser, the trace and the acknowledgement offset. -/
theorem witness_RepeatedReadReturnsTheSameBody :
    let s' : State := { online with fpState := .done, rxStatus := .stOverrun, txOut := [0x40#8], params := ⟨.unbounded, 7⟩ }
    online.session.isOpen = s'.session.isOpen ∧ online.session.address = s'.session.address ∧
    online.params.rxCap = s'.params.rxCap ∧ online.fbState = s'.fbState ∧ online.fbState = .idle := by decide

/-- A whole transaction of a host that keeps to the contract, up to its result, and one that has only begun. -/
theorem witness_ContractHostIsNeverRejected :
    let run : List Instr := [.fpClr, .fbStart ⟨0x30#8, 0x31#8⟩ ⟨0x35#8, 0x33#8⟩, .fbParam 0x30#8, .fbEnd,
      .fpByte 0x2A#8, .fpByte 0x0D#8, .ackChk ⟨0x35#8, 0x33#8⟩ ⟨0x30#8, 0x31#8⟩]
    base.fbState = .idle ∧ contractSoFar .between base (run.take 3) = true ∧ contractKept .between base run = true ∧
    phaseAfter .between run = .awaiting := by decide

end Sys2Proof.Tests
end

section
/-! PROOFS. The state after reset (10_state.md R28). -/

namespace Sys2Proof.Machine

/-- Settles O41: `State.reset` and `Session.created` are the table of R28 written as records, so each row is read off its
field; the nine registers of the block first, then the four fields of the session. -/
theorem resetStateValues : Obligations.ResetStateValues :=
  ⟨rfl, rfl, rfl, rfl, rfl, rfl, rfl, rfl, rfl,
    rfl, rfl, rfl, rfl⟩

end Sys2Proof.Machine
end

section
/-! PROOFS. Which commands are rejected, and what a rejected command does (30_encoding.md R76). -/

namespace Sys2Proof.Machine

/-- The events of the seven reserved opcodes, 0x9 to 0xF (R73, R76 (a)). -/
def reservedEvents : List Instr :=
  [.reserved9, .reservedA, .reservedB, .reservedC, .reservedD, .reservedE, .reservedF]

/-- A reserved opcode decodes to a reserved event, whatever the operand. -/
theorem mem_reservedEvents_of_decodeFields {op : BitVec 4} {d : BitVec 32} {i : Instr} (hop : 9 ≤ op.toNat)
    (hd : decodeFields op d = .ok i) : i ∈ reservedEvents := by
  have hlt := op.isLt
  unfold decodeFields at hd
  generalize op.toNat = n at hop hlt hd
  interval_cases n <;> cases hd <;> decide

/-- Each reserved event has an opcode of its own from 0x9 on. -/
theorem exists_opcode_of_mem_reservedEvents :
    ∀ i ∈ reservedEvents, ∃ op : BitVec 4, 9 ≤ op.toNat ∧ decodeFields op 0#32 = .ok i := by
  decide

theorem decode_reservedOpcode_iff (i : Instr) :
    (∃ (op : BitVec 4) (d : BitVec 32), 9 ≤ op.toNat ∧ decode (.cmd (cmdWord op d)) = .ok i) ↔
      i ∈ reservedEvents := by
  simp only [decode_cmdWord]
  constructor
  · rintro ⟨op, d, hop, hd⟩
    exact mem_reservedEvents_of_decodeFields hop hd
  · intro hi
    obtain ⟨op, hop, hd⟩ := exists_opcode_of_mem_reservedEvents i hi
    exact ⟨op, 0#32, hop, hd⟩

/-- The model's rejection test, event by event, is the four cases (a) to (d) of R76. -/
theorem isRejected_iff (i : Instr) (s : State) :
    isRejected i s = true ↔
      i ∈ reservedEvents ∨
      ((∃ addr sig, i = .fbStart addr sig) ∧ s.fbState = .param) ∨
      (((∃ b, i = .fbParam b) ∨ i = .fbEnd) ∧ s.fbState = .idle) ∨
      ((∃ sig mode, i = .ackChk sig mode) ∧ s.fpState = .collect) := by
  cases i <;> simp [isRejected, reservedEvents]

/-- A rejected event changes nothing but `cmd_reject`: the four commands that depend on a state test it first, and the
reserved events do nothing else. -/
theorem exec_of_isRejected {i : Instr} {s : State} (h : isRejected i s = true) : exec i s = .next (rejected s) := by
  cases i with
  | fbStart addr sig =>
    have hs : s.fbState = .param := by simpa [isRejected] using h
    simp [exec, execFbStart, hs]
  | fbParam b =>
    have hs : s.fbState = .idle := by simpa [isRejected] using h
    simp [exec, execFbParam, hs]
  | fbEnd =>
    have hs : s.fbState = .idle := by simpa [isRejected] using h
    simp [exec, execFbEnd, hs]
  | ackChk sig mode =>
    have hs : s.fpState = .collect := by simpa [isRejected] using h
    simp [exec, execAckChk, hs]
  | reserved9 | reservedA | reservedB | reservedC | reservedD | reservedE | reservedF => rfl
  | nop | csClr | csUpd _ | fpClr | fpAbort | fpByte _ | reset => cases h

/-- Settles O8: the four cases of R76 are the model's rejection test, so that a rejected event answers by
`exec_of_isRejected` and every other one has the output `cmd_reject` of `after_cmdReject`. -/
theorem rejectedCommandsChangeNothing : Obligations.RejectedCommandsChangeNothing := by
  intro i s bad
  have hbad : bad ↔ isRejected i s = true := by
    rw [isRejected_iff, ← decode_reservedOpcode_iff]
  constructor
  · intro h
    exact exec_of_isRejected (hbad.mp h)
  · intro h
    have hno : isRejected i s = false := by simpa using mt hbad.mpr h
    exact ⟨after i s, exec_eq i s, by rw [after_cmdReject, hno]⟩

end Sys2Proof.Machine
end

section
/-! PROOFS. The checksum function and its two-digit form (40_checksum.md R90, R92, R93). -/

namespace Sys2Proof.Machine

/-- Settles O10: the equation for one more byte at the end is `xorFold_append` with a sequence of one byte. -/
theorem xorFoldIsTheRunningXor : Obligations.XorFoldIsTheRunningXor := by
  refine ⟨xorFold_nil, fun s b => ?_⟩
  rw [xorFold_append, xorFold_singleton]

/-- The value of a digit, in which no addition of R92 wraps around. -/
theorem hexDigit_toNat (n : BitVec 4) :
    (hexDigit n).toNat = if n.toNat ≤ 9 then 0x30 + n.toNat else 0x37 + n.toNat := by
  have hlt := n.isLt
  unfold hexDigit
  split <;> simp <;> omega

theorem hexDigit_eq_ofNat (n : BitVec 4) :
    hexDigit n = BitVec.ofNat 8 (if n.toNat ≤ 9 then 0x30 + n.toNat else 0x37 + n.toNat) := by
  rw [← hexDigit_toNat, BitVec.ofNat_toNat, BitVec.setWidth_eq]

/-- A digit is one of `0` to `9` or one of `A` to `F` (R92). -/
theorem hexDigit_range (n : BitVec 4) :
    (0x30 ≤ (hexDigit n).toNat ∧ (hexDigit n).toNat ≤ 0x39) ∨
      (0x41 ≤ (hexDigit n).toNat ∧ (hexDigit n).toNat ≤ 0x46) := by
  have hlt := n.isLt
  rw [hexDigit_toNat]
  split
  · left; omega
  · right; omega

/-- The decimal digits end below the letters, so the digit tells its nibble. -/
theorem hexDigit_inj {n m : BitVec 4} : hexDigit n = hexDigit m ↔ n = m := by
  refine ⟨fun h => BitVec.eq_of_toNat_eq ?_, congrArg hexDigit⟩
  have hv := congrArg BitVec.toNat h
  rw [hexDigit_toNat, hexDigit_toNat] at hv
  have hn := n.isLt
  have hm := m.isLt
  split at hv <;> split at hv <;> omega

theorem nibbles_append (v : Byte) : v.extractLsb' 4 4 ++ v.extractLsb' 0 4 = v :=
  (BitVec.extractLsb'_append_extractLsb'_eq_extractLsb' rfl).trans BitVec.extractLsb'_eq_self

/-- The two digits give back both nibbles, and these the byte (R93). -/
theorem hex2_inj {v w : Byte} : hex2 v = hex2 w ↔ v = w := by
  refine ⟨fun h => ?_, congrArg hex2⟩
  obtain ⟨hhi, hlo⟩ : hexHi v = hexHi w ∧ hexLo v = hexLo w := by simpa [hex2] using h
  rw [← nibbles_append v, ← nibbles_append w, hexDigit_inj.mp hhi, hexDigit_inj.mp hlo]

/-- The field comparison, character for character (R93). -/
theorem fcsEq_iff_chars (field : Bytes) (v : Byte) :
    fcsEq field v = true ↔ field.length = 2 ∧ field[0]? = some (hexHi v) ∧ field[1]? = some (hexLo v) := by
  rw [fcsEq_iff]
  constructor
  · rintro rfl
    exact ⟨rfl, rfl, rfl⟩
  · rintro ⟨hlen, h0, h1⟩
    obtain ⟨c0, c1, rfl⟩ := List.length_eq_two.mp hlen
    cases h0
    cases h1
    rfl

/-- Settles O12: the digits are told by `hexDigit_toNat`, HEX2 keeps both nibbles apart, and the comparison with a field
is equality with HEX2. -/
theorem hexDigitsAndFieldComparison : Obligations.HexDigitsAndFieldComparison :=
  ⟨hexDigit_eq_ofNat, hexDigit_range, fun _ => ⟨rfl, rfl, rfl⟩, fun _ _ => hex2_inj, fcsEq_iff_chars⟩

end Sys2Proof.Machine
end

section
/-! PROOFS. The events of the checksum generator and NOP (40_checksum.md R95 to R97). -/

namespace Sys2Proof.Machine

theorem after_nop (s : State) : after .nop s = { s with cmdReject := false } := rfl

theorem after_csClr (s : State) : after .csClr s = { s with csAcc := 0x00#8, cmdReject := false } := rfl

theorem after_csUpd (b : Byte) (s : State) :
    after (.csUpd b) s = { s with csAcc := s.csAcc ^^^ b, cmdReject := false } := rfl

/-- Clearing forgets the accumulator it finds, so a second time changes nothing (R95). -/
theorem after_csClr_csClr (s : State) : after .csClr (after .csClr s) = after .csClr s := rfl

theorem after_csUpd_zero (s : State) : after (.csUpd 0x00#8) s = { s with cmdReject := false } := by
  rw [after_csUpd, BitVec.xor_zero]

theorem after_csUpd_csAcc (s : State) :
    after (.csUpd s.csAcc) s = { s with csAcc := 0x00#8, cmdReject := false } := by
  rw [after_csUpd, BitVec.xor_self]

/-- Folding one byte twice cancels (R96). -/
theorem after_csUpd_csUpd (b : Byte) (s : State) :
    after (.csUpd b) (after (.csUpd b) s) = { s with cmdReject := false } := by
  simp only [after_csUpd, BitVec.xor_assoc, BitVec.xor_self, BitVec.xor_zero]

/-- Two events in a row. -/
theorem execAll_pair (i j : Instr) (s : State) : execAll [i, j] s = .next (after j (after i s)) := by
  rw [execAll_cons, execAll_cons, execAll_nil]

/-- Settles O13: the opcode alone decides the event, and the event only lowers `cmd_reject`. -/
theorem nopLeavesEveryState : Obligations.NopLeavesEveryState := by
  intro d s
  have hdecode : decodeFields 0x0#4 d = .ok .nop := rfl
  exact ⟨by rw [decode_cmdWord, hdecode], by rw [exec_eq, after_nop]⟩

/-- Settles O14: what CS_CLR leaves is `after_csClr`; 0x00 is the checksum of no bytes and reads as two digits `0`. -/
theorem csClrClearsTheAccumulator : Obligations.CsClrClearsTheAccumulator := by
  intro d s
  have hdecode : decodeFields 0x1#4 d = .ok .csClr := rfl
  have hdigits : hex2 0x00#8 = [0x30#8, 0x30#8] := by decide
  exact ⟨by rw [decode_cmdWord, hdecode], by rw [exec_eq, after_csClr], hdigits, xorFold_nil,
    by rw [execAll_pair, after_csClr_csClr, exec_eq]⟩

/-- Settles O15: what CS_UPD leaves is `after_csUpd`, and the corner cases are the laws of exclusive-or on it. -/
theorem csUpdFoldsItsByte : Obligations.CsUpdFoldsItsByte := by
  intro d b s
  have hdecode : decodeFields 0x2#4 d = .ok (.csUpd (d.extractLsb' 0 8)) := rfl
  exact ⟨by rw [decode_cmdWord, hdecode], by rw [exec_eq, after_csUpd], by rw [exec_eq, after_csUpd_zero],
    by rw [exec_eq, after_csUpd_csAcc], by rw [execAll_pair, after_csUpd_csUpd]⟩

end Sys2Proof.Machine
end

section
/-! PROOFS. The events of the frame builder (41_frame_build.md R112 to R114). -/

namespace Sys2Proof.Machine

theorem frameHead_eq (addr sig : Pair) : frameHead addr sig = [0x40#8, addr.c0, addr.c1, sig.c0, sig.c1] := rfl

theorem frameTail_eq (fcs : Byte) : frameTail fcs = [hexHi fcs, hexLo fcs, 0x2A#8, 0x0D#8] := rfl

/-- The four characters stand in the operand in line order (R72). -/
theorem decode_fbStart (addr sig : Pair) :
    decode (.cmd (cmdWord 0x3#4 (pairData addr sig))) = .ok (.fbStart addr sig) := by
  have hfields (d : BitVec 32) : decodeFields 0x3#4 d = .ok (.fbStart (upperPair d) (lowerPair d)) := rfl
  rw [decode_cmdWord, hfields, upperPair_pairData, lowerPair_pairData]

/-- Whatever `tx_acc` held before is discarded (R112). -/
theorem after_fbStart_of_idle {s : State} (h : s.fbState = .idle) (addr sig : Pair) :
    after (.fbStart addr sig) s = { s with
      txOut := s.txOut ++ frameHead addr sig, txAcc := 0x40#8 ^^^ addr.c0 ^^^ addr.c1 ^^^ sig.c0 ^^^ sig.c1,
      fbState := .param, cmdReject := false } := by
  simp only [after, exec, execFbStart, h]
  rfl

theorem after_fbParam_of_param {s : State} (h : s.fbState = .param) (b : Byte) :
    after (.fbParam b) s = { s with txOut := s.txOut ++ [b], txAcc := s.txAcc ^^^ b, cmdReject := false } := by
  simp only [after, exec, execFbParam, h, accepted, emit]

/-- The digits and the terminator are emitted and not folded (R114). -/
theorem after_fbEnd_of_param {s : State} (h : s.fbState = .param) :
    after .fbEnd s = { s with txOut := s.txOut ++ frameTail s.txAcc, fbState := .idle, cmdReject := false } := by
  simp only [after, exec, execFbEnd, h]
  rfl

theorem exec_fbStart_of_param {s : State} (h : s.fbState = .param) (addr sig : Pair) :
    exec (.fbStart addr sig) s = .next (rejected s) :=
  exec_of_isRejected (by rw [isRejected, h]; rfl)

theorem exec_fbParam_of_idle {s : State} (h : s.fbState = .idle) (b : Byte) :
    exec (.fbParam b) s = .next (rejected s) :=
  exec_of_isRejected (by rw [isRejected, h]; rfl)

theorem exec_fbEnd_of_idle {s : State} (h : s.fbState = .idle) : exec .fbEnd s = .next (rejected s) :=
  exec_of_isRejected (by rw [isRejected, h]; rfl)

/-- Accepted or rejected, FB_END leaves the builder idle and its checksum as it was (R114). -/
theorem fbEnd_leaves_idle {s t : State} (ht : exec .fbEnd s = .next t) : t.fbState = .idle ∧ t.txAcc = s.txAcc := by
  cases hs : s.fbState with
  | idle =>
    rw [exec_fbEnd_of_idle hs] at ht
    cases ht
    exact ⟨hs, rfl⟩
  | param =>
    rw [exec_eq, after_fbEnd_of_param hs] at ht
    cases ht
    exact ⟨rfl, rfl⟩

/-- Settles O17: the word is the one of `decode_fbStart`; `after_fbStart_of_idle` is the accepted case, whose next state
is busy, and `exec_fbStart_of_param` the rejected one. -/
theorem fbStartOpensAFrame : Obligations.FbStartOpensAFrame := by
  intro addr sig s
  refine ⟨decode_fbStart addr sig, fun hs => ?_, fun hs => exec_fbStart_of_param hs addr sig, fun t hs ht => ?_⟩
  · rw [exec_eq, after_fbStart_of_idle hs, frameHead_eq]
  · rw [exec_eq, after_fbStart_of_idle hs] at ht
    cases ht
    rfl

/-- Settles O18: no case depends on the byte, only on whether a frame is open. -/
theorem fbParamEmitsItsByte : Obligations.FbParamEmitsItsByte := by
  intro d b s
  have hdecode : decodeFields 0x4#4 d = .ok (.fbParam (d.extractLsb' 0 8)) := rfl
  exact ⟨by rw [decode_cmdWord, hdecode], fun hs => by rw [exec_eq, after_fbParam_of_param hs],
    fun hs => exec_fbParam_of_idle hs b⟩

/-- Settles O19: the opcode alone decides the event, `after_fbEnd_of_param` is the accepted case, and the outputs of both
cases are read off `fbEnd_leaves_idle`. -/
theorem fbEndClosesTheFrame : Obligations.FbEndClosesTheFrame := by
  intro d s
  have hdecode : decodeFields 0x5#4 d = .ok .fbEnd := rfl
  refine ⟨by rw [decode_cmdWord, hdecode], fun hs => ?_, exec_fbEnd_of_idle, fun t ht => ?_⟩
  · rw [exec_eq, after_fbEnd_of_param hs, frameTail_eq]
  · obtain ⟨hidle, hacc⟩ := fbEnd_leaves_idle ht
    exact ⟨by rw [fbBusy, hidle]; rfl, hacc⟩

end Sys2Proof.Machine
end

section
/-! PROOFS. The verification of a line, and the outputs that show its parts (42_frame_parse.md R132 to R138). -/

namespace Sys2Proof.Machine

/-- Digits of a checksum are hex digits, so a field with any other character fails (R132). -/
theorem verify_of_not_hexDigit {f0 f1 : Byte} (h : (∀ n, f0 ≠ hexDigit n) ∨ (∀ n, f1 ≠ hexDigit n))
    (body : Bytes) : verify (body ++ [f0, f1]) = false := by
  rw [← Bool.not_eq_true, verify_append body [f0, f1] rfl]
  intro hfield
  obtain ⟨hhi, hlo⟩ : f0 = hexHi (xorFold body) ∧ f1 = hexLo (xorFold body) := by simpa [hex2] using hfield
  rcases h with h | h
  · exact h _ hhi
  · exact h _ hlo

/-- A line of two characters is a checksum field with nothing before it (R132). -/
theorem verify_of_length_two {line : Bytes} (h : line.length = 2) :
    verify line = true ↔ line = [0x30#8, 0x30#8] := by
  have hdigits : hex2 (xorFold []) = [0x30#8, 0x30#8] := by decide
  rw [← hdigits]
  exact verify_append [] line h

/-- Settles O24: the line is cut into body and field by `verify_append`; the empty body has the digits `00`. -/
theorem verifyComparesTheLastTwoCharacters : Obligations.VerifyComparesTheLastTwoCharacters :=
  ⟨fun _ => verify_short, fun body f0 f1 => verify_append body [f0, f1] rfl, fun _ => verify_of_length_two,
    fun body _ _ h => verify_of_not_hexDigit h body⟩

/-- The outputs of a line cut into body and checksum field (R134, R135). -/
theorem fcsOutputs_of_append {s : State} {body field : Bytes} (hline : s.rxLine = body ++ field)
    (hfield : field.length = 2) : rxBody s = body ∧ rxFcsCalc s = xorFold body ∧ rxFcsField s = field := by
  have hcut : (body ++ field).length - 2 = body.length := by simp [hfield]
  have hlong : 2 ≤ (body ++ field).length := by simp [hfield]
  refine ⟨?_, ?_, ?_⟩
  · rw [rxBody, hline, bodyOf_append body field hfield]
  · rw [rxFcsCalc, hline, if_pos hlong, hcut, slice_append_left]
  · rw [rxFcsField, hline, if_pos hlong, hcut, slice_append_right]

/-- The outputs of a line too short for a checksum field are the fillers of R20 (R134, R135). -/
theorem fcsOutputs_of_short {s : State} (h : s.rxLine.length < 2) :
    rxBody s = [] ∧ rxFcsCalc s = 0x00#8 ∧ rxFcsField s = [0x00#8, 0x00#8] ∧ rxFcsOk s = false := by
  have hshort : ¬ 2 ≤ s.rxLine.length := by omega
  exact ⟨if_pos h, if_neg hshort, if_neg hshort, verify_short h⟩

/-- Settles O25: DECODE is a test of `rx_fcs_ok`, and the outputs of a line are those of its body and field. -/
theorem decodeYieldsTheBody : Obligations.DecodeYieldsTheBody := by
  intro s
  refine ⟨fun hok => ?_, fun hbad => ?_, fun body f0 f1 hline => ?_, fcsOutputs_of_short⟩
  · exact if_pos hok
  · have hverify : ¬ verify s.rxLine = true := by rw [Bool.not_eq_true]; exact hbad
    exact if_neg hverify
  · obtain ⟨hbody, hcalc, hfield⟩ := fcsOutputs_of_append hline rfl
    refine ⟨hbody, hcalc, hfield, ?_⟩
    rw [hcalc, hfield, rxFcsOk, hline]
    exact verify_append body [f0, f1] rfl

theorem slice_append_middle (a b c : Bytes) : slice (a ++ b ++ c) a.length (a ++ b).length = b := by
  rw [slice, List.take_left, List.drop_left]

theorem rxHeadOk_iff (s : State) : rxHeadOk s = true ↔ s.rxLine[0]? = some 0x40#8 := by
  cases hline : s.rxLine with
  | nil => simp [rxHeadOk, hline]
  | cons c line => simp [rxHeadOk, hline, Config.head]

theorem rxFieldsValid_iff (s : State) : rxFieldsValid s = true ↔ 7 ≤ s.rxLine.length := decide_eq_true_iff

/-- The fields of a line that has room for all of them (R137, R138). -/
theorem fieldOutputs_of_layout {s : State} {h a0 a1 s0 s1 f0 f1 : Byte} {payload : Bytes}
    (hline : s.rxLine = [h, a0, a1, s0, s1] ++ payload ++ [f0, f1]) :
    rxAddr s = [a0, a1] ∧ rxSig s = [s0, s1] ∧ rxPayload s = payload ∧ rxLen s = payload.length + 7 := by
  have hlen : s.rxLine.length = payload.length + 7 := by simp [hline]
  have hvalid : rxFieldsValid s = true := (rxFieldsValid_iff s).mpr (by omega)
  have hcut : s.rxLine.length - 2 = ([h, a0, a1, s0, s1] ++ payload).length := by simp [hlen]
  refine ⟨?_, ?_, ?_, hlen⟩
  · rw [rxAddr, if_pos hvalid, hline]
    rfl
  · rw [rxSig, if_pos hvalid, hline]
    rfl
  · rw [rxPayload, if_pos hvalid, payloadField, hcut, hline]
    exact slice_append_middle [h, a0, a1, s0, s1] payload [f0, f1]

theorem fieldOutputs_of_short {s : State} (h : s.rxLine.length < 7) :
    rxAddr s = [0x00#8, 0x00#8] ∧ rxSig s = [0x00#8, 0x00#8] ∧ rxPayload s = [] := by
  have hinvalid : ¬ rxFieldsValid s = true := by rw [rxFieldsValid_iff]; omega
  exact ⟨if_neg hinvalid, if_neg hinvalid, if_neg hinvalid⟩

/-- Settles O26: both flags by their tests, the fields on either side of the boundary of 7 bytes. -/
theorem fieldOutputsFollowTheLayout : Obligations.FieldOutputsFollowTheLayout :=
  fun s => ⟨rxHeadOk_iff s, rxFieldsValid_iff s, fun _ _ _ _ _ _ _ _ => fieldOutputs_of_layout,
    fieldOutputs_of_short⟩

end Sys2Proof.Machine
end

section
/-! PROOFS. The end of a line in a stream of bytes (42_frame_parse.md R131). -/

namespace Sys2Proof.Machine

/-- The terminator pair stands at place `k` of the sequence (R131). -/
def TerminatorAt (s : Bytes) (k : Nat) : Prop := s[k]? = some 0x2A#8 ∧ s[k + 1]? = some 0x0D#8

/-- Place `k` holds the terminator pair and no earlier place does (R131). -/
def FirstTerminatorAt (s : Bytes) (k : Nat) : Prop := TerminatorAt s k ∧ ∀ j, j < k → ¬ TerminatorAt s j

theorem FirstTerminatorAt.unique {s : Bytes} {j k : Nat} (hj : FirstTerminatorAt s j) (hk : FirstTerminatorAt s k) :
    j = k := by
  rcases Nat.lt_trichotomy j k with h | h | h
  · exact absurd hj.1 (hk.2 j h)
  · exact h
  · exact absurd hk.1 (hj.2 k h)

theorem splitLine_eq_none_iff (s : Bytes) : splitLine s = none ↔ ∀ k, ¬ TerminatorAt s k :=
  (hasTerminator_iff_splitLine s).symm.trans (hasTerminator_false_iff s)

/-- An earlier pair would lie in the line with the `*` after it, and the line holds none. -/
theorem firstTerminatorAt_length {line : Bytes} (h : hasTerminator line = false) (rest : Bytes) :
    FirstTerminatorAt (line ++ [0x2A#8, 0x0D#8] ++ rest) line.length := by
  refine ⟨by simp [TerminatorAt], fun j hj hpair => ?_⟩
  have hregroup : line ++ [0x2A#8, 0x0D#8] ++ rest = (line ++ [0x2A#8]) ++ 0x0D#8 :: rest := by simp
  have hbefore : ∀ i ≤ line.length, (line ++ [0x2A#8, 0x0D#8] ++ rest)[i]? = (line ++ [0x2A#8])[i]? := by
    intro i hi
    rw [hregroup, List.getElem?_append_left (by simp; omega)]
  rw [TerminatorAt, hbefore j (by omega), hbefore (j + 1) hj] at hpair
  exact (hasTerminator_false_iff _).mp (hasTerminator_star h) j hpair

/-- What SPLITLINE answers is cut at the first terminator pair (R131). -/
theorem splitLine_cut {s line rest : Bytes} (h : splitLine s = some (line, rest)) :
    ∃ k, FirstTerminatorAt s k ∧ line = slice s 0 k ∧ rest = slice s (k + 2) s.length := by
  obtain ⟨rfl, hline⟩ := splitLine_parts h
  refine ⟨line.length, firstTerminatorAt_length hline rest, ?_, ?_⟩
  · rw [List.append_assoc, slice_append_left]
  · exact (slice_append_right (line ++ [0x2A#8, 0x0D#8]) rest).symm.trans (by rw [List.length_append]; rfl)

theorem splitLine_eq_some_iff (s line rest : Bytes) :
    splitLine s = some (line, rest) ↔
      ∃ k, FirstTerminatorAt s k ∧ line = slice s 0 k ∧ rest = slice s (k + 2) s.length := by
  refine ⟨splitLine_cut, ?_⟩
  rintro ⟨k, hk, rfl, rfl⟩
  cases hs : splitLine s with
  | none => exact absurd hk.1 ((splitLine_eq_none_iff s).mp hs k)
  | some cut =>
    obtain ⟨line, rest⟩ := cut
    obtain ⟨j, hj, rfl, rfl⟩ := splitLine_cut hs
    rw [hj.unique hk]

/-- Settles O32: SPLITLINE cuts at a first terminator pair, of which there is at most one. -/
theorem splitLineCutsAtTheFirstTerminator : Obligations.SplitLineCutsAtTheFirstTerminator := by
  intro s
  refine ⟨fun line rest => ?_, splitLine_eq_none_iff s⟩
  simpa only [FirstTerminatorAt, TerminatorAt, and_assoc] using splitLine_eq_some_iff s line rest

end Sys2Proof.Machine
end

section
/-! PROOFS. The events of the frame parser (42_frame_parse.md R140 to R142, R144, R150, R151). -/

namespace Sys2Proof.Machine

theorem after_fpByte (b : Byte) (s : State) : after (.fpByte b) s = accepted (takeByte b s) := rfl

/-- The order of the three verdicts (R144). -/
theorem judge_eq_ite (line : Bytes) :
    judge line = if line.length = 0 then .stEmptyResponse
      else if verify line = false then .stChecksumMismatch else .stOk := by
  unfold judge
  cases verify line <;> rfl

/-- Settles O27: each branch of R140 is the lemma about `takeByte` for it, and the latched line has the verdict of
`judge_eq_ite`. -/
theorem fpByteCollectsCompletesOrOverruns : Obligations.FpByteCollectsCompletesOrOverruns := by
  intro b s
  refine ⟨rfl, fun hdone => ?_, fun line hcollect hbuf hb => ?_, fun hcollect hdata hfull => ?_,
    fun hcollect hdata hroom => ?_⟩
  · rw [exec_eq, after_fpByte, takeByte_done hdone]
    rfl
  · rw [exec_eq, after_fpByte, hb, takeByte_complete hcollect line hbuf, complete_eq, judge_eq_ite]
    rfl
  · rw [exec_eq, after_fpByte, takeByte_overrun hcollect b hdata hfull]
    rfl
  · rw [exec_eq, after_fpByte, takeByte_store hcollect b hdata hroom]
    rfl

theorem after_fpClr (s : State) : after .fpClr s = accepted (clearFp s) := rfl

/-- Clearing forgets what it finds, so a second time changes nothing (R141). -/
theorem after_fpClr_fpClr (s : State) : after .fpClr (after .fpClr s) = after .fpClr s := rfl

/-- With an empty line and nothing latched every flag of FP is 0 (R141). -/
theorem fpFlags_after_fpClr (s : State) :
    rxDone (after .fpClr s) = false ∧ rxFcsOk (after .fpClr s) = false ∧ rxHeadOk (after .fpClr s) = false ∧
      rxFieldsValid (after .fpClr s) = false ∧ (after .fpClr s).ackOk = false :=
  ⟨rfl, rfl, rfl, rfl, rfl⟩

/-- Settles O28: the opcode alone decides the event, and `clearFp` writes every field of FP and no other. -/
theorem fpClrForgetsEverythingReceived : Obligations.FpClrForgetsEverythingReceived := by
  intro d s
  have hdecode : decodeFields 0x6#4 d = .ok .fpClr := rfl
  refine ⟨by rw [decode_cmdWord, hdecode], by rw [exec_eq, after_fpClr]; rfl, fun t ht => ?_,
    by rw [execAll_pair, after_fpClr_fpClr, exec_eq]⟩
  rw [exec_eq] at ht
  cases ht
  exact fpFlags_after_fpClr s

theorem after_fpAbort_of_collect {s : State} (h : s.fpState = .collect) :
    after .fpAbort s = { s with
      rxBuf := [], rxLine := [], rxStatus := .stTransportFault, fpState := .done, cmdReject := false } := by
  simp only [after, exec, execFpAbort, h]
  rfl

theorem after_fpAbort_of_done {s : State} (h : s.fpState = .done) : after .fpAbort s = accepted s := by
  simp only [after, exec, execFpAbort, h]

theorem after_fpAbort_fpState (s : State) : (after .fpAbort s).fpState = .done := by
  cases h : s.fpState with
  | collect => rw [after_fpAbort_of_collect h]
  | done => rw [after_fpAbort_of_done h]; exact h

/-- A second abort finds a latched result, which stands (R142). -/
theorem after_fpAbort_fpAbort (s : State) : after .fpAbort (after .fpAbort s) = after .fpAbort s := by
  rw [after_fpAbort_of_done (after_fpAbort_fpState s)]
  rfl

/-- Settles O29: the opcode alone decides the event; the two cases are those of `fp_state`, and both end in
`FP_DONE`. -/
theorem fpAbortLatchesATransportFault : Obligations.FpAbortLatchesATransportFault := by
  intro d s
  have hdecode : decodeFields 0x7#4 d = .ok .fpAbort := rfl
  refine ⟨by rw [decode_cmdWord, hdecode], fun hs => by rw [exec_eq, after_fpAbort_of_collect hs],
    fun hs => by rw [exec_eq, after_fpAbort_of_done hs]; rfl, fun t ht => ?_,
    by rw [execAll_pair, after_fpAbort_fpAbort, exec_eq]⟩
  rw [exec_eq] at ht
  cases ht
  rw [rxDone, after_fpAbort_fpState]
  rfl

/-- The four characters stand in the operand in order (R72). -/
theorem decode_ackChk (sig mode : Pair) :
    decode (.cmd (cmdWord 0x8#4 (pairData sig mode))) = .ok (.ackChk sig mode) := by
  have hfields (d : BitVec 32) : decodeFields 0x8#4 d = .ok (.ackChk (upperPair d) (lowerPair d)) := rfl
  rw [decode_cmdWord, hfields, upperPair_pairData, lowerPair_pairData]

theorem exec_ackChk_of_collect {s : State} (h : s.fpState = .collect) (sig mode : Pair) :
    exec (.ackChk sig mode) s = .next (rejected s) :=
  exec_of_isRejected (by rw [isRejected, h]; rfl)

theorem exec_ackChk_of_done {s : State} (h : s.fpState = .done) (sig mode : Pair) :
    exec (.ackChk sig mode) s = .next (accepted (ackVerdict sig mode s)) := by
  simp only [exec, execAckChk, h]

/-- On a verified line both echoed fields decide the verdict, whatever an earlier one was (R150). -/
theorem ackVerdict_of_verified {s : State} (h : s.rxStatus = .stOk ∨ s.rxStatus = .stAckMismatch) (sig mode : Pair) :
    ackVerdict sig mode s =
      if ackMatch s.params.ackModeOffset s.rxLine sig mode then { s with ackOk := true, rxStatus := .stOk }
      else { s with ackOk := false, rxStatus := .stAckMismatch } := by
  rcases ackVerdict_cases sig mode s with ⟨_, hm, hs⟩ | ⟨_, hm, hs⟩ | ⟨hno, _⟩
  · rw [hs, if_pos hm]
  · rw [hs, if_neg (by simp [hm])]
  · exact absurd h hno

/-- An earlier failure keeps its status (R150). -/
theorem ackVerdict_of_failed {s : State} (h : ¬ (s.rxStatus = .stOk ∨ s.rxStatus = .stAckMismatch))
    (sig mode : Pair) : ackVerdict sig mode s = { s with ackOk := false } := by
  rcases ackVerdict_cases sig mode s with ⟨hyes, _⟩ | ⟨hyes, _⟩ | ⟨_, hs⟩
  · exact absurd hyes h
  · exact absurd hyes h
  · exact hs

/-- Settles O30: in `FP_DONE` the event is `ackVerdict`, and `ackMatch_iff` is the comparison of the echoed fields. -/
theorem ackChkComparesTheEchoedFields : Obligations.AckChkComparesTheEchoedFields := by
  intro sig mode s body off isMatch
  have hmatch : ackMatch s.params.ackModeOffset s.rxLine sig mode = true ↔ isMatch :=
    ackMatch_iff off s.rxLine sig mode
  refine ⟨decode_ackChk sig mode, fun hs => exec_ackChk_of_collect hs sig mode, fun hs hline hm => ?_,
    fun hs hline hm => ?_, fun hs hline => ?_⟩
  · rw [exec_ackChk_of_done hs, ackVerdict_of_verified hline, if_pos (hmatch.mpr hm)]
    rfl
  · rw [exec_ackChk_of_done hs, ackVerdict_of_verified hline, if_neg (mt hmatch.mp hm)]
    rfl
  · rw [exec_ackChk_of_done hs, ackVerdict_of_failed hline]
    rfl

end Sys2Proof.Machine
end

section
/-! PROOFS. Opening and closing the session (43_session_commands.md R173, R174). -/

namespace Sys2Proof.Machine

/-- Open of an open session (R173): the transport is not asked. -/
theorem openSession_of_isOpen {s : State} (h : s.session.isOpen = true) (ok : Bool) :
    openSession ok s = .next (⟨false, ⟨statusOfCode Config.alreadyOpenedCode, .alreadyOpened⟩, []⟩,
      setSessionStatus ⟨statusOfCode Config.alreadyOpenedCode, .alreadyOpened⟩ s) := by
  rw [openSession, if_pos h]

/-- Open of a closed session when the transport opens (R173). -/
theorem openSession_true_of_not_isOpen {s : State} (h : s.session.isOpen = false) :
    openSession true s = .next (⟨true, okStatus, []⟩,
      { s with session := { s.session with isOpen := true, status := okStatus } }) := by
  rw [openSession, if_neg (by simp [h]), if_pos rfl]

/-- Open of a closed session when the transport fails (R173). -/
theorem openSession_false_of_not_isOpen {s : State} (h : s.session.isOpen = false) :
    openSession false s = .next (⟨false, ⟨.stPortUnavailable, .openFailed⟩, []⟩,
      setSessionStatus ⟨.stPortUnavailable, .openFailed⟩ s) := by
  rw [openSession, if_neg (by simp [h]), if_neg Bool.false_ne_true]

/-- Close of a closed session (R174). -/
theorem closeSession_of_not_isOpen {s : State} (h : s.session.isOpen = false) (ok : Bool) :
    closeSession ok s = .next (⟨false, ⟨statusOfCode Config.notOpenCode, .notOpen⟩, []⟩, s) := by
  rw [closeSession, if_neg (by simp [h])]

/-- Close of an open session when the transport closes (R174). -/
theorem closeSession_true_of_isOpen {s : State} (h : s.session.isOpen = true) :
    closeSession true s = .next (⟨true, okStatus, []⟩,
      { s with session := { s.session with isOpen := false, status := okStatus } }) := by
  rw [closeSession, if_pos h, if_pos rfl]

/-- Close of an open session when the transport fails: closed all the same (R174). -/
theorem closeSession_false_of_isOpen {s : State} (h : s.session.isOpen = true) :
    closeSession false s = .next (⟨false, ⟨.stTransportFault, .closeFailed⟩, []⟩,
      { s with session := { s.session with isOpen := false, status := ⟨.stTransportFault, .closeFailed⟩ } }) := by
  rw [closeSession, if_pos h, if_neg Bool.false_ne_true]

/-- Settles O50: by the open flag, and on a closed session by the transport's answer. The answer of an open session is
the same for every transport, as `openSession_of_isOpen` names none. -/
theorem openIsANoOpFailureWhenOpen : Obligations.OpenIsANoOpFailureWhenOpen := by
  intro ok s
  cases hopen : s.session.isOpen with
  | true =>
    exact ⟨_, _, openSession_of_isOpen hopen ok, rfl, rfl,
      fun _ => ⟨rfl, hopen, rfl, rfl, fun other => by rw [openSession_of_isOpen hopen, openSession_of_isOpen hopen]⟩,
      nofun, nofun⟩
  | false =>
    cases ok with
    | true => exact ⟨_, _, openSession_true_of_not_isOpen hopen, rfl, rfl, nofun, fun _ _ => ⟨rfl, rfl⟩, nofun⟩
    | false =>
      exact ⟨_, _, openSession_false_of_not_isOpen hopen, rfl, rfl, nofun, nofun, fun _ _ => ⟨rfl, rfl, hopen, rfl⟩⟩

/-- Settles O51: by the open flag, and on an open session by the transport's answer. -/
theorem closeAlwaysLeavesTheSessionClosed : Obligations.CloseAlwaysLeavesTheSessionClosed := by
  intro ok s
  cases hopen : s.session.isOpen with
  | false =>
    exact ⟨_, _, closeSession_of_not_isOpen hopen ok, rfl, hopen, fun _ => ⟨rfl, rfl, rfl⟩, nofun, nofun, nofun⟩
  | true =>
    cases ok with
    | true =>
      exact ⟨_, _, closeSession_true_of_isOpen hopen, rfl, rfl, nofun, fun _ => rfl, fun _ _ => rfl, nofun⟩
    | false =>
      exact ⟨_, _, closeSession_false_of_isOpen hopen, rfl, rfl, nofun, fun _ => rfl, nofun, fun _ _ => ⟨rfl, rfl⟩⟩

end Sys2Proof.Machine
end

section
/-! PROOFS. RESET (70_reset_and_hazards.md R250). -/

namespace Sys2Proof.Machine

theorem after_reset (s : State) : after .reset s = accepted (resetBlock s) := rfl

/-- Resetting forgets what it finds, so a second time changes nothing (R250). -/
theorem after_reset_reset (s : State) : after .reset (after .reset s) = after .reset s := rfl

/-- After RESET the parser is as FP_CLR leaves it. -/
theorem after_fpClr_after_reset (s : State) : after .fpClr (after .reset s) = after .reset s := rfl

/-- The builder is idle and the parser cleared, so every flag is 0 (R250). -/
theorem flags_after_reset (s : State) :
    rxDone (after .reset s) = false ∧ rxFcsOk (after .reset s) = false ∧ rxHeadOk (after .reset s) = false ∧
      rxFieldsValid (after .reset s) = false ∧ (after .reset s).ackOk = false ∧ fbBusy (after .reset s) = false := by
  have hparser := fpFlags_after_fpClr (after .reset s)
  rw [after_fpClr_after_reset] at hparser
  obtain ⟨hdone, hfcs, hhead, hfields, hack⟩ := hparser
  have hbusy : fbBusy (after .reset s) = false := by
    rw [fbBusy, after_reset, accepted_fbState, resetBlock_fbState]
    rfl
  exact ⟨hdone, hfcs, hhead, hfields, hack, hbusy⟩

/-- With `rst` high neither the command nor the byte of the cycle becomes an event (R74, R250). -/
theorem cycleEvents_of_rst {c : Cycle} (h : c.rst = true) : cycleEvents c = [.pin true] := by
  rw [cycleEvents, if_pos h]

/-- Settles O40: what RESET leaves is `after_reset`, whose flags are those of a cleared parser and an idle builder. -/
theorem resetEventRestoresEveryRegister : Obligations.ResetEventRestoresEveryRegister := by
  intro s c
  refine ⟨rfl, by rw [exec_eq, after_reset]; rfl, fun t ht => ?_, by rw [execAll_pair, after_reset_reset, exec_eq],
    cycleEvents_of_rst⟩
  rw [exec_eq] at ht
  cases ht
  exact flags_after_reset s

end Sys2Proof.Machine
end

section
/-! PROOFS. The event encoding: the decoder looks at the opcode and at the operand bits R72 names, and at nothing else
(30_encoding.md R71 to R73, R76). -/

namespace Sys2Proof.Machine

theorem opcodeOf_and (v w : BitVec 36) : opcodeOf (v &&& w) = opcodeOf v &&& opcodeOf w :=
  BitVec.extractLsb'_and

theorem dataOf_and (v w : BitVec 36) : dataOf (v &&& w) = dataOf v &&& dataOf w :=
  BitVec.extractLsb'_and

/-- The mask of an event without operand: the opcode alone (R72). -/
abbrev opcodeMask : BitVec 36 := 0xF00000000#36

/-- The mask of an event with a byte operand in `[7:0]` (R72). -/
abbrev byteMask : BitVec 36 := 0xF000000FF#36

/-- The mask of an event whose operand fills `cmd_data` (R72). -/
abbrev wholeMask : BitVec 36 := 0xFFFFFFFFF#36

/-- The three operand layouts of R72, as the decoder sees them: how the event of a word depends on the operand, which
bits of the word that is, and how the event is encoded again. -/
inductive OperandLayout (op : BitVec 4) (d : BitVec 32) (i : Instr) : Prop
  | ignored (mask : operandMask i = opcodeMask) (enc : encode i = .cmd (cmdWord op 0#32))
      (dec : ∀ d', decodeFields op d' = .ok i)
  | byte (mk : Byte → Instr) (mask : operandMask i = byteMask)
      (enc : encode i = .cmd (cmdWord op (byteData (byteOperand d)))) (val : mk (byteOperand d) = i)
      (dec : ∀ d', decodeFields op d' = .ok (mk (byteOperand d')))
  | pairs (mask : operandMask i = wholeMask)
      (enc : encode i = .cmd (cmdWord op (pairData (upperPair d) (lowerPair d))))

/-- Every opcode has one of the three layouts, here in the order 0x0 to 0xF (R72, R73). -/
theorem operandLayout_of_decodeFields {op : BitVec 4} {d : BitVec 32} {i : Instr} (h : decodeFields op d = .ok i) :
    OperandLayout op d i := by
  obtain ⟨n, hn, rfl⟩ : ∃ n < 16, op = BitVec.ofNat 4 n := ⟨op.toNat, op.isLt, by simp⟩
  interval_cases n <;> cases h
  · exact .ignored rfl rfl fun _ => rfl
  · exact .ignored rfl rfl fun _ => rfl
  · exact .byte .csUpd rfl rfl rfl fun _ => rfl
  · exact .pairs rfl rfl
  · exact .byte .fbParam rfl rfl rfl fun _ => rfl
  · exact .ignored rfl rfl fun _ => rfl
  · exact .ignored rfl rfl fun _ => rfl
  · exact .ignored rfl rfl fun _ => rfl
  · exact .pairs rfl rfl
  · exact .ignored rfl rfl fun _ => rfl
  · exact .ignored rfl rfl fun _ => rfl
  · exact .ignored rfl rfl fun _ => rfl
  · exact .ignored rfl rfl fun _ => rfl
  · exact .ignored rfl rfl fun _ => rfl
  · exact .ignored rfl rfl fun _ => rfl
  · exact .ignored rfl rfl fun _ => rfl

/-- A mask that keeps the opcode keeps it whatever else it clears. -/
theorem opcodeOf_and_mask {m : BitVec 36} (hm : opcodeOf m = 0xF#4) (w : BitVec 36) :
    opcodeOf (w &&& m) = opcodeOf w := by
  rw [opcodeOf_and, hm]
  exact BitVec.and_allOnes

theorem opcodeOf_eq_of_mask {m w w' : BitVec 36} (hm : opcodeOf m = 0xF#4) (h : w' &&& m = w &&& m) :
    opcodeOf w' = opcodeOf w := by
  rw [← opcodeOf_and_mask hm w', h, opcodeOf_and_mask hm w]

theorem byteOperand_and_byteMask (w : BitVec 36) : byteOperand (dataOf (w &&& byteMask)) = byteOperand (dataOf w) := by
  have hones : byteOperand (dataOf byteMask) = BitVec.allOnes 8 := by decide
  rw [dataOf_and, byteOperand, BitVec.extractLsb'_and]
  exact (congrArg _ hones).trans BitVec.and_allOnes

theorem decode_encode (i : Instr) : decode (encode i) = .ok i := by
  cases i with
  | csUpd b =>
    have hfields (d : BitVec 32) : decodeFields 0x2#4 d = .ok (.csUpd (byteOperand d)) := rfl
    rw [encode, decode_cmdWord, hfields, byteOperand_byteData]
  | fbParam b =>
    have hfields (d : BitVec 32) : decodeFields 0x4#4 d = .ok (.fbParam (byteOperand d)) := rfl
    rw [encode, decode_cmdWord, hfields, byteOperand_byteData]
  | fbStart addr sig => exact decode_fbStart addr sig
  | ackChk sig mode => exact decode_ackChk sig mode
  | nop | csClr | fbEnd | fpClr | fpAbort | reserved9 | reservedA | reservedB | reservedC | reservedD | reservedE
  | reservedF => exact decode_cmdWord _ _
  | fpByte b => rfl
  | reset => rfl

/-- Words that agree on the opcode and on the named operand bits of the event of one of them are words of the same event
(R72, D29). -/
theorem decode_eq_of_mask {w w' : BitVec 36} {i : Instr} (hi : decode (.cmd w) = .ok i)
    (h : w' &&& operandMask i = w &&& operandMask i) : decode (.cmd w') = .ok i := by
  show decodeFields (opcodeOf w') (dataOf w') = .ok i
  cases operandLayout_of_decodeFields hi with
  | ignored mask enc dec =>
    rw [mask] at h
    rw [opcodeOf_eq_of_mask (by decide) h, dec]
  | byte mk mask enc val dec =>
    rw [mask] at h
    have hbyte : byteOperand (dataOf w') = byteOperand (dataOf w) := by
      rw [← byteOperand_and_byteMask, h, byteOperand_and_byteMask]
    rw [opcodeOf_eq_of_mask (by decide) h, dec, hbyte, val]
  | pairs mask enc =>
    have hwhole (v : BitVec 36) : v &&& operandMask i = v := mask ▸ BitVec.and_allOnes
    rw [hwhole, hwhole] at h
    rw [h]
    exact hi

/-- Settles O4: `decode_encode`, and the decoder's blindness to the ignored bits. -/
theorem decodeInvertsEncode : Obligations.DecodeInvertsEncode := by
  intro i _
  refine ⟨decode_encode i, fun w w' hw hmask => decode_eq_of_mask ?_ hmask⟩
  rw [← hw, decode_encode]

theorem byteData_byteOperand (d : BitVec 32) : byteData (byteOperand d) = d &&& 0xFF#32 := by
  apply BitVec.eq_of_toNat_eq
  have hmask := Nat.and_two_pow_sub_one_eq_mod d.toNat 8
  simp [byteData, byteOperand] at hmask ⊢
  omega

theorem pairData_pairs (d : BitVec 32) : pairData (upperPair d) (lowerPair d) = d := by
  apply BitVec.eq_of_getLsbD_eq
  intro k hk
  rw [getLsbD_pairData]
  simp only [upperPair, lowerPair, BitVec.getLsbD_extractLsb']
  split
  · simp [*]
  split
  · rename_i h8 h16
    simp [show k - 8 < 8 by omega, show 8 + (k - 8) = k by omega]
  split
  · rename_i h8 h16 h24
    simp [show k - 16 < 8 by omega, show 16 + (k - 16) = k by omega]
  · rename_i h8 h16 h24
    simp [show k - 24 < 8 by omega, show 24 + (k - 24) = k by omega]

/-- Masking a word masks its fields. -/
theorem and_eq_cmdWord {w m : BitVec 36} (hm : opcodeOf m = 0xF#4) :
    w &&& m = cmdWord (opcodeOf w) (dataOf w &&& dataOf m) := by
  rw [← cmdWord_fields (w &&& m), opcodeOf_and_mask hm, dataOf_and]

/-- Encoding what a word decodes to clears the ignored bits of the word and no other (R72). -/
theorem encode_of_decode {w : BitVec 36} {i : Instr} (hi : decode (.cmd w) = .ok i) :
    encode i = .cmd (w &&& operandMask i) := by
  cases operandLayout_of_decodeFields hi with
  | ignored mask enc dec =>
    have hdata : dataOf opcodeMask = 0#32 := by decide
    rw [enc, mask, and_eq_cmdWord (by decide), hdata, BitVec.and_zero]
  | byte mk mask enc val dec =>
    have hdata : dataOf byteMask = 0xFF#32 := by decide
    rw [enc, mask, and_eq_cmdWord (by decide), hdata, byteData_byteOperand]
  | pairs mask enc =>
    rw [enc, mask, pairData_pairs, cmdWord_fields]
    exact congrArg Raw.cmd BitVec.and_allOnes.symm

theorem wellFormed_eq_true (i : Instr) : i.wellFormed = true := by cases i <;> rfl

/-- Settles O5: no opcode is outside the map, and `encode_of_decode` is the rest. -/
theorem everyCommandWordDecodes : Obligations.EveryCommandWordDecodes := by
  intro w
  obtain ⟨i, hi⟩ := decodeFields_total (opcodeOf w) (dataOf w)
  exact ⟨i, hi, wellFormed_eq_true i, encode_of_decode hi⟩

/-- Settles O3: each word is read at its opcode and operand. -/
theorem writtenOutWordsDecode : Obligations.WrittenOutWordsDecode := by
  unfold Obligations.WrittenOutWordsDecode
  decide

/-- Settles O9: the opcode alone decides the event, and a reserved event is rejected in every state. -/
theorem reservedOpcodesAreRejected : Obligations.ReservedOpcodesAreRejected := by
  intro d s
  have hrow {op : BitVec 4} {i : Instr} (hop : decodeFields op d = .ok i) (hi : isRejected i s = true) :
      decode (.cmd (cmdWord op d)) = .ok i ∧ exec i s = .next { s with cmdReject := true } :=
    ⟨(decode_cmdWord op d).trans hop, exec_of_isRejected hi⟩
  exact ⟨hrow rfl rfl, hrow rfl rfl, hrow rfl rfl, hrow rfl rfl, hrow rfl rfl, hrow rfl rfl, hrow rfl rfl⟩

end Sys2Proof.Machine
end

section
/-! PROOFS. What one event can do to the builder and to the parser: one inversion lemma for each unit, from which the
statements about every event are read off (10_state.md R13 to R19; 20_memory.md R49). -/

namespace Sys2Proof.Machine

theorem fbView_eq_iff {s : State} {st : FbState} {acc : Byte} {out : Bytes} :
    fbView s = (st, acc, out) ↔ s.fbState = st ∧ s.txAcc = acc ∧ s.txOut = out := by
  simp only [fbView, Prod.mk.injEq]

theorem fpView_eq_iff {s : State} {fp : FpState} {buf line : Bytes} {st : Status} {ack : Bool} {p : Config.Params} :
    fpView s = (fp, buf, line, st, ack, p) ↔
      s.fpState = fp ∧ s.rxBuf = buf ∧ s.rxLine = line ∧ s.rxStatus = st ∧ s.ackOk = ack ∧ s.params = p := by
  simp only [fpView, Prod.mk.injEq]

/-- Everything an event can do to the frame builder (R112 to R114, R250). -/
inductive BuilderMove (i : Instr) (s : State) : Prop
  | stays (view : fbView (after i s) = fbView s)
  | starts (addr sig : Pair) (own : i.hw = .fb) (idle : s.fbState = .idle)
      (view : fbView (after i s) = (.param, xorFold (frameHead addr sig), s.txOut ++ frameHead addr sig))
  | appends (b : Byte) (own : i.hw = .fb) (busy : s.fbState = .param)
      (view : fbView (after i s) = (.param, s.txAcc ^^^ b, s.txOut ++ [b]))
  | finishes (own : i.hw = .fb) (busy : s.fbState = .param)
      (view : fbView (after i s) = (.idle, s.txAcc, s.txOut ++ frameTail s.txAcc))
  | resets (isReset : i = .reset) (view : fbView (after i s) = (.idle, 0x00#8, []))

/-- The state after an event is what `exec` answers. -/
theorem after_of_exec {i : Instr} {s t : State} (h : exec i s = .next t) : after i s = t := by
  rw [exec_eq] at h
  cases h
  rfl

/-- What FB_START puts into `tx_acc` is the checksum of what it emits (R112). -/
theorem xorFold_frameHead (addr sig : Pair) :
    xorFold (frameHead addr sig) = 0x40#8 ^^^ addr.c0 ^^^ addr.c1 ^^^ sig.c0 ^^^ sig.c1 := by
  simp only [frameHead_eq, xorFold_cons, xorFold_nil, BitVec.xor_zero, BitVec.xor_assoc]

theorem fbView_after_fbStart {s : State} (h : s.fbState = .idle) (addr sig : Pair) :
    fbView (after (.fbStart addr sig) s) = (.param, xorFold (frameHead addr sig), s.txOut ++ frameHead addr sig) := by
  rw [after_fbStart_of_idle h, xorFold_frameHead]
  rfl

theorem builderMove (i : Instr) (s : State) : BuilderMove i s := by
  cases i with
  | fbStart addr sig =>
    cases hs : s.fbState with
    | idle => exact .starts addr sig rfl hs (fbView_after_fbStart hs addr sig)
    | param => exact .stays (by rw [after_of_exec (exec_fbStart_of_param hs addr sig)]; rfl)
  | fbParam b =>
    cases hs : s.fbState with
    | idle => exact .stays (by rw [after_of_exec (exec_fbParam_of_idle hs b)]; rfl)
    | param => exact .appends b rfl hs (by rw [after_fbParam_of_param hs, fbView, hs])
  | fbEnd =>
    cases hs : s.fbState with
    | idle => exact .stays (by rw [after_of_exec (exec_fbEnd_of_idle hs)]; rfl)
    | param => exact .finishes rfl hs (by rw [after_fbEnd_of_param hs]; rfl)
  | reset => exact .resets rfl rfl
  | nop | csClr | csUpd _ | fpClr | fpAbort | ackChk _ _ | fpByte _ | reserved9 | reservedA | reservedB | reservedC
  | reservedD | reservedE | reservedF => exact .stays (after_fbView_other (by simp [Instr.hw]) (by simp [Instr.hw]) s)

/-- What a result latched while collecting can be: the verdict of a completed line, or a failure without a line
(R140, R142, R144). -/
inductive LatchedResult (buf line : Bytes) (st : Status) : Prop
  | completed (ended : buf = line ++ [Config.term0]) (verdict : st = judge line)
  | failed (empty : line = []) (fault : st = .stOverrun ∨ st = .stTransportFault)

/-- Everything an event can do to the frame parser (R140 to R142, R150, R250). -/
inductive ParserMove (i : Instr) (s : State) : Prop
  | stays (view : fpView (after i s) = fpView s)
  | clears (own : i = .fpClr ∨ i = .reset)
      (view : fpView (after i s) = (.collect, [], [], .stNone, false, s.params))
  | stores (b : Byte) (own : i = .fpByte b) (collecting : s.fpState = .collect)
      (data : ¬ (b = Config.term1 ∧ s.rxBuf.getLast? = some Config.term0))
      (room : s.params.rxCap ≠ .finite s.rxBuf.length)
      (view : fpView (after i s) = (.collect, s.rxBuf ++ [b], s.rxLine, s.rxStatus, s.ackOk, s.params))
  | latches (st : Status) (line : Bytes) (own : (∃ b, i = .fpByte b) ∨ i = .fpAbort) (collecting : s.fpState = .collect)
      (result : LatchedResult s.rxBuf line st) (view : fpView (after i s) = (.done, [], line, st, s.ackOk, s.params))
  | judges (ok : Bool) (own : ∃ sig mode, i = .ackChk sig mode) (latched : s.fpState = .done)
      (verified : s.rxStatus = .stOk ∨ s.rxStatus = .stAckMismatch)
      (view : fpView (after i s) =
        (.done, s.rxBuf, s.rxLine, if ok then .stOk else .stAckMismatch, ok, s.params))
  | keepsFailure (own : ∃ sig mode, i = .ackChk sig mode) (latched : s.fpState = .done)
      (failed : ¬ (s.rxStatus = .stOk ∨ s.rxStatus = .stAckMismatch))
      (view : fpView (after i s) = (.done, s.rxBuf, s.rxLine, s.rxStatus, false, s.params))

theorem parserMove_fpByte (b : Byte) (s : State) : ParserMove (.fpByte b) s := by
  cases hs : s.fpState with
  | done => exact .stays (by rw [after_fpByte, takeByte_done hs]; rfl)
  | collect =>
    rcases takeByte_collect hs b with ⟨line, hbuf, _, ht⟩ | ⟨_, _, ht⟩ | ⟨hdata, hroom, ht⟩
    · exact .latches (judge line) line (.inl ⟨b, rfl⟩) hs (.completed hbuf rfl)
        (by rw [after_fpByte, ht, complete_eq]; rfl)
    · exact .latches .stOverrun [] (.inl ⟨b, rfl⟩) hs (.failed rfl (.inl rfl)) (by rw [after_fpByte, ht]; rfl)
    · have hne : s.params.rxCap ≠ .finite s.rxBuf.length := by
        rwa [← Bool.not_eq_true, capReached_iff] at hroom
      exact .stores b rfl hs hdata hne (by rw [after_fpByte, ht, ← hs]; rfl)

theorem parserMove_ackChk (sig mode : Pair) (s : State) : ParserMove (.ackChk sig mode) s := by
  cases hs : s.fpState with
  | collect => exact .stays (by rw [after_of_exec (exec_ackChk_of_collect hs sig mode)]; rfl)
  | done =>
    have hafter := after_of_exec (exec_ackChk_of_done hs sig mode)
    rcases ackVerdict_cases sig mode s with ⟨hv, _, ht⟩ | ⟨hv, _, ht⟩ | ⟨hf, ht⟩
    · exact .judges true ⟨sig, mode, rfl⟩ hs hv (by rw [hafter, ht, ← hs]; rfl)
    · exact .judges false ⟨sig, mode, rfl⟩ hs hv (by rw [hafter, ht, ← hs]; rfl)
    · exact .keepsFailure ⟨sig, mode, rfl⟩ hs hf (by rw [hafter, ht, ← hs]; rfl)

theorem parserMove (i : Instr) (s : State) : ParserMove i s := by
  cases i with
  | fpByte b => exact parserMove_fpByte b s
  | ackChk sig mode => exact parserMove_ackChk sig mode s
  | fpAbort =>
    cases hs : s.fpState with
    | collect =>
      exact .latches .stTransportFault [] (.inr rfl) hs (.failed rfl (.inr rfl))
        (by rw [after_fpAbort_of_collect hs]; rfl)
    | done => exact .stays (by rw [after_fpAbort_of_done hs]; rfl)
  | fpClr => exact .clears (.inl rfl) rfl
  | reset => exact .clears (.inr rfl) rfl
  | nop | csClr | csUpd _ | fbStart _ _ | fbParam _ | fbEnd | reserved9 | reservedA | reservedB | reservedC
  | reservedD | reservedE | reservedF => exact .stays (after_fpView_other (by simp [Instr.hw]) (by simp [Instr.hw]) s)

end Sys2Proof.Machine
end

section
/-! PROOFS. The invariant of the reachable states (10_state.md R26; 41_frame_build.md R116): the parser's half and the
transmit trace's half, each kept by every move of its unit. -/

namespace Sys2Proof.Machine

open Sys2Proof.Safety

/-- What a latched result holds, by its status (R26 (iv) to (viii), R18). -/
def ResultFits (line : Bytes) (ack : Bool) : Status → Prop
  | .stNone => False
  | .stOk => verify line = true
  | .stPortUnavailable => False
  | .stTransportFault => line = [] ∧ ack = false
  | .stChecksumMismatch => ack = false
  | .stAckMismatch => verify line = true ∧ ack = false
  | .stEmptyResponse => line = [] ∧ ack = false
  | .stOverrun => line = [] ∧ ack = false

/-- The parser's half of the invariant, by `fp_state`: while collecting nothing is latched and the buffer is bounded and
without a terminator pair; in `FP_DONE` the buffer is empty and so is the line bounded, with a result that fits it. -/
def ParserInv : FpState × Bytes × Bytes × Status × Bool × Config.Params → Prop
  | (.collect, buf, line, st, ack, p) =>
    (line = [] ∧ st = .stNone ∧ ack = false) ∧ hasTerminator buf = false ∧ ∀ n, p.rxCap = .finite n → buf.length ≤ n
  | (.done, buf, line, st, ack, p) =>
    buf = [] ∧ hasTerminator line = false ∧ (∀ n, p.rxCap = .finite n → line.length ≤ n - 1) ∧ ResultFits line ack st

theorem length_of_verify {line : Bytes} (h : verify line = true) : 2 ≤ line.length := by
  by_contra hlen
  rw [verify_short (by omega)] at h
  cases h

theorem verify_of_resultFits {line : Bytes} {ack : Bool} {st : Status} (h : ResultFits line ack st)
    (hst : st = .stOk ∨ st = .stAckMismatch) : verify line = true := by
  rcases hst with rfl | rfl
  · exact h
  · exact h.1

/-- Only `ST_OK` stands beside `ack_ok` 1 (R26 (vii)). -/
theorem eq_stOk_of_resultFits {line : Bytes} {st : Status} (h : ResultFits line true st) : st = .stOk := by
  cases st with
  | stOk => rfl
  | stNone | stPortUnavailable => exact h.elim
  | stChecksumMismatch => cases h
  | stTransportFault | stAckMismatch | stEmptyResponse | stOverrun => cases h.2

theorem resultFits_of_failed {line : Bytes} {ack : Bool} {st : Status} (h : ResultFits line ack st)
    (hst : ¬ (st = .stOk ∨ st = .stAckMismatch)) : ResultFits line false st := by
  cases st with
  | stOk | stAckMismatch => exact absurd (by decide) hst
  | stNone | stPortUnavailable => exact h.elim
  | stChecksumMismatch => rfl
  | stTransportFault | stEmptyResponse | stOverrun => exact ⟨h.1, rfl⟩

theorem resultFits_of_inv {s : State} (h : Inv s) (hs : s.fpState = .done) :
    ResultFits s.rxLine s.ackOk s.rxStatus := by
  have hack : s.rxStatus ≠ .stOk → s.ackOk = false := by simpa using mt h.ackMeansOk
  cases hst : s.rxStatus with
  | stNone => exact h.doneHasStatus hs hst
  | stOk => exact (h.okVerified hst).1
  | stPortUnavailable => exact h.portStatusNever hst
  | stTransportFault => exact ⟨h.failedLineEmpty (.inl hst), hack (by rw [hst]; decide)⟩
  | stChecksumMismatch => exact hack (by rw [hst]; decide)
  | stAckMismatch => exact h.mismatchVerified hst
  | stEmptyResponse => exact ⟨h.failedLineEmpty (.inr (.inr hst)), hack (by rw [hst]; decide)⟩
  | stOverrun => exact ⟨h.failedLineEmpty (.inr (.inl hst)), hack (by rw [hst]; decide)⟩

theorem parserInv_of_inv {s : State} (h : Inv s) : ParserInv (fpView s) := by
  cases hs : s.fpState with
  | collect =>
    rw [fpView, hs]
    exact ⟨h.collectCleared hs, h.bufNoTerminator, h.bufWithinCap⟩
  | done =>
    rw [fpView, hs]
    exact ⟨h.doneBufEmpty hs, h.lineNoTerminator, h.lineWithinCap, resultFits_of_inv h hs⟩

theorem inv_of_collect {s : State} (hs : s.fpState = .collect) (hp : ParserInv (fpView s)) (ht : TxShape s) :
    Inv s := by
  rw [fpView, hs] at hp
  obtain ⟨⟨hline, hst, hack⟩, hterm, hcap⟩ := hp
  exact
    { bufWithinCap := hcap
      lineWithinCap := by simp [hline]
      doneBufEmpty := by simp [hs]
      collectCleared := fun _ => ⟨hline, hst, hack⟩
      doneHasStatus := by simp [hs]
      okVerified := by simp [hst]
      failedLineEmpty := fun _ => hline
      ackMeansOk := by simp [hack]
      mismatchVerified := by simp [hst]
      portStatusNever := by simp [hst]
      bufNoTerminator := hterm
      lineNoTerminator := by rw [hline]; rfl
      txShape := ht }

theorem inv_of_done {s : State} (hs : s.fpState = .done) (hp : ParserInv (fpView s)) (ht : TxShape s) : Inv s := by
  rw [fpView, hs] at hp
  obtain ⟨hbuf, hterm, hcap, hfits⟩ := hp
  exact
    { bufWithinCap := by simp [hbuf]
      lineWithinCap := hcap
      doneBufEmpty := fun _ => hbuf
      collectCleared := by simp [hs]
      doneHasStatus := fun _ hst => by rw [hst] at hfits; exact hfits
      okVerified := fun hst => by rw [hst] at hfits; exact ⟨hfits, length_of_verify hfits⟩
      failedLineEmpty := by rintro (hst | hst | hst) <;> rw [hst] at hfits <;> exact hfits.1
      ackMeansOk := fun hack => eq_stOk_of_resultFits (hack ▸ hfits)
      mismatchVerified := fun hst => by rw [hst] at hfits; exact hfits
      portStatusNever := fun hst => by rw [hst] at hfits; exact hfits
      bufNoTerminator := by rw [hbuf]; rfl
      lineNoTerminator := hterm
      txShape := ht }

/-- The invariant is its two halves. -/
theorem inv_iff (s : State) : Inv s ↔ ParserInv (fpView s) ∧ TxShape s := by
  refine ⟨fun h => ⟨parserInv_of_inv h, h.txShape⟩, fun ⟨hp, ht⟩ => ?_⟩
  cases hs : s.fpState with
  | collect => exact inv_of_collect hs hp ht
  | done => exact inv_of_done hs hp ht

/-- With nothing received or latched the parser's half holds, whatever the parameters. -/
theorem parserInv_cleared (p : Config.Params) : ParserInv (.collect, [], [], .stNone, false, p) :=
  ⟨⟨rfl, rfl, rfl⟩, rfl, fun _ _ => Nat.zero_le _⟩

theorem resultFits_judge (line : Bytes) : ResultFits line false (judge line) := by
  rcases judge_cases line with ⟨hline, hj⟩ | ⟨_, hv, hj⟩ | ⟨_, _, hj⟩
  · rw [hj]; exact ⟨hline, rfl⟩
  · rw [hj]; exact hv
  · rw [hj]; rfl

/-- A completed line is one shorter than the buffer it was collected in, and holds no pair the buffer did not hold. -/
theorem parserInv_latched {s : State} (hp : ParserInv (fpView s)) (hs : s.fpState = .collect) {line : Bytes}
    {st : Status} (h : LatchedResult s.rxBuf line st) : ParserInv (.done, [], line, st, s.ackOk, s.params) := by
  rw [fpView, hs] at hp
  obtain ⟨⟨_, _, hack⟩, hterm, hcap⟩ := hp
  rw [hack]
  cases h with
  | completed ended verdict =>
    rw [ended] at hterm hcap
    refine ⟨rfl, hasTerminator_prefix hterm, fun n hn => ?_, verdict ▸ resultFits_judge line⟩
    have hlen := hcap n hn
    rw [List.length_append, List.length_singleton] at hlen
    omega
  | failed empty fault =>
    subst empty
    refine ⟨rfl, rfl, fun _ _ => Nat.zero_le _, ?_⟩
    rcases fault with rfl | rfl <;> exact ⟨rfl, rfl⟩

/-- A stored byte makes no terminator pair and there is room for it (R140). -/
theorem parserInv_stored {s : State} (hp : ParserInv (fpView s)) (hs : s.fpState = .collect) {b : Byte}
    (hdata : ¬ (b = Config.term1 ∧ s.rxBuf.getLast? = some Config.term0))
    (hroom : s.params.rxCap ≠ .finite s.rxBuf.length) :
    ParserInv (.collect, s.rxBuf ++ [b], s.rxLine, s.rxStatus, s.ackOk, s.params) := by
  rw [fpView, hs] at hp
  obtain ⟨hcleared, hterm, hcap⟩ := hp
  refine ⟨hcleared, ?_, fun n hn => ?_⟩
  · rw [hasTerminator_snoc, hterm, Bool.false_or, Bool.and_eq_false_iff, beq_eq_false_iff_ne, beq_eq_false_iff_ne]
    tauto
  · have hle := hcap n hn
    have hne : n ≠ s.rxBuf.length := fun e => hroom (e ▸ hn)
    rw [List.length_append, List.length_singleton]
    omega

/-- Every event keeps the parser's half, from every state that has it. -/
theorem parserInv_after (i : Instr) {s : State} (h : ParserInv (fpView s)) : ParserInv (fpView (after i s)) := by
  cases parserMove i s with
  | stays view => rw [view]; exact h
  | clears own view => rw [view]; exact parserInv_cleared s.params
  | stores b own collecting data room view => rw [view]; exact parserInv_stored h collecting data room
  | latches st line own collecting result view => rw [view]; exact parserInv_latched h collecting result
  | judges ok own latched verified view =>
    rw [fpView, latched] at h
    obtain ⟨hbuf, hterm, hcap, hfits⟩ := h
    have hverify := verify_of_resultFits hfits verified
    rw [view]
    refine ⟨hbuf, hterm, hcap, ?_⟩
    cases ok with
    | true => exact hverify
    | false => exact ⟨hverify, rfl⟩
  | keepsFailure own latched failed view =>
    rw [fpView, latched] at h
    obtain ⟨hbuf, hterm, hcap, hfits⟩ := h
    rw [view]
    exact ⟨hbuf, hterm, hcap, resultFits_of_failed hfits failed⟩

theorem txShape_congr {s t : State} (h : fbView t = fbView s) (hs : TxShape s) : TxShape t := by
  obtain ⟨hstate, hacc, hout⟩ := fbView_eq_iff.mp h
  unfold TxShape
  rw [hstate, hacc, hout]
  exact hs

theorem txShape_idle_iff {s : State} (h : s.fbState = .idle) :
    TxShape s ↔ ∃ frames : List Bytes, (∀ f ∈ frames, wellFormedFrame f = true) ∧
      s.txOut = frames.flatten ∧ s.txAcc = lastFcs frames := by
  unfold TxShape
  rw [h]

theorem txShape_param_iff {s : State} (h : s.fbState = .param) :
    TxShape s ↔ ∃ frames : List Bytes, (∀ f ∈ frames, wellFormedFrame f = true) ∧
      ∃ (addr sig : Pair) (p : Bytes), s.txOut = frames.flatten ++ (frameHead addr sig ++ p) ∧
        s.txAcc = xorFold (frameHead addr sig ++ p) := by
  unfold TxShape
  rw [h]

/-- The frame that closes a body (R114). -/
theorem lastFcs_snoc (frames : List Bytes) (body : Bytes) :
    lastFcs (frames ++ [body ++ frameTail (xorFold body)]) = xorFold body := by
  have hcut : (body ++ frameTail (xorFold body)).length - 4 = body.length := by simp [frameTail]
  rw [lastFcs, List.getLast?_concat]
  simp only [hcut, slice_append_left]

theorem wellFormedFrame_frameTail (addr sig : Pair) (p : Bytes) :
    wellFormedFrame (frameHead addr sig ++ p ++ frameTail (xorFold (frameHead addr sig ++ p))) = true := by
  rw [frameTail, ← List.append_assoc]
  exact wellFormedFrame_of_body _ (by simp) rfl

/-- Every event keeps the shape of the trace: FB_START opens a frame, FB_PARAM lengthens it, FB_END completes it
(R116). -/
theorem txShape_after (i : Instr) {s : State} (h : TxShape s) : TxShape (after i s) := by
  cases builderMove i s with
  | stays view => exact txShape_congr view h
  | starts addr sig own idle view =>
    obtain ⟨frames, hframes, hout, _⟩ := (txShape_idle_iff idle).mp h
    obtain ⟨hstate, hacc, hout'⟩ := fbView_eq_iff.mp view
    exact (txShape_param_iff hstate).mpr ⟨frames, hframes, addr, sig, [], by rw [hout', hout, List.append_nil],
      by rw [hacc, List.append_nil]⟩
  | appends b own busy view =>
    obtain ⟨frames, hframes, addr, sig, p, hout, hacc⟩ := (txShape_param_iff busy).mp h
    obtain ⟨hstate, hacc', hout'⟩ := fbView_eq_iff.mp view
    refine (txShape_param_iff hstate).mpr ⟨frames, hframes, addr, sig, p ++ [b], ?_, ?_⟩
    · rw [hout', hout, List.append_assoc, List.append_assoc]
    · rw [hacc', hacc, ← List.append_assoc, xorFold_append _ [b], xorFold_singleton]
  | finishes own busy view =>
    obtain ⟨frames, hframes, addr, sig, p, hout, hacc⟩ := (txShape_param_iff busy).mp h
    obtain ⟨hstate, hacc', hout'⟩ := fbView_eq_iff.mp view
    refine (txShape_idle_iff hstate).mpr
      ⟨frames ++ [frameHead addr sig ++ p ++ frameTail (xorFold (frameHead addr sig ++ p))], ?_, ?_, ?_⟩
    · intro f hf
      rcases List.mem_append.mp hf with hf | hf
      · exact hframes f hf
      · rw [List.mem_singleton.mp hf]; exact wellFormedFrame_frameTail addr sig p
    · rw [hout', hout, hacc, List.flatten_concat, List.append_assoc]
    · rw [hacc', hacc, lastFcs_snoc]
  | resets isReset view =>
    obtain ⟨hstate, hacc, hout⟩ := fbView_eq_iff.mp view
    exact (txShape_idle_iff hstate).mpr ⟨[], by simp, hout, hacc⟩

theorem inv_after (i : Instr) {s : State} (h : Inv s) : Inv (after i s) := by
  rw [inv_iff] at h ⊢
  exact ⟨parserInv_after i h.1, txShape_after i h.2⟩

/-- Settles O43: a step does one event on the rest of the input, which the invariant does not mention, and every event
keeps both halves. -/
theorem stepKeepsInv : Obligations.StepKeepsInv := by
  intro s t hs hstep
  obtain ⟨r, rest, i, _, _, ht⟩ := step_cases hstep
  have hinv : Inv { s with pending := rest } := by
    rw [inv_iff] at hs ⊢
    exact hs
  rw [← after_of_exec ht]
  exact inv_after i hinv

/-- Settles O42: a cleared parser and an empty trace. -/
theorem resetSatisfiesInv : Obligations.ResetSatisfiesInv :=
  (inv_iff State.reset).mpr ⟨parserInv_cleared Config.params, (txShape_idle_iff rfl).mpr ⟨[], by simp, rfl, rfl⟩⟩

end Sys2Proof.Machine
end

section
/-! PROOFS. Steps, runs of steps and the events of a clock cycle (00_scope.md R4; 20_memory.md R49;
30_encoding.md R74). -/

namespace Sys2Proof.Machine

/-- Settles O7: `exec_eq` names the answer. -/
theorem everyEventCompletes : Obligations.EveryEventCompletes :=
  fun i s => ⟨after i s, exec_eq i s⟩

/-- Settles O1: the step fetches the presentation, decodes it and does the event. -/
theorem stepRunsTheDecodedEvent : Obligations.StepRunsTheDecodedEvent :=
  fun _ _ _ _ hp hd _ => step_of_decode hp hd

theorem step_of_nil {s : State} (h : s.pending = []) : step s = .fault .endOfInput := by
  simp only [step, fetch, h]

theorem step_of_rstLow {s : State} {rest : List Raw} (h : s.pending = .pin false :: rest) :
    step s = .refused (.undecodable .rstLow) := by
  simp only [step, fetch, h, doPresented, decode]

theorem wellFormed_of_ne_rstLow {r : Raw} (h : r ≠ .pin false) : r.wellFormed = true := by
  cases r with
  | cmd w => rfl
  | rxb b => rfl
  | pin rst =>
    cases rst with
    | true => rfl
    | false => exact absurd rfl h

/-- Settles O2: the low reset pin is the only presentation that does not decode, and every decoded event completes. -/
theorem stepStopsOnlyWithoutAnEvent : Obligations.StepStopsOnlyWithoutAnEvent := by
  refine fun s => ⟨step_of_nil, fun rest => step_of_rstLow, fun r rest hp hr => ?_⟩
  obtain ⟨i, hi⟩ := (decode_ok_iff_wellFormed r).mpr (wellFormed_of_ne_rstLow hr)
  exact ⟨_, (step_of_decode hp hi).trans (exec_eq i _)⟩

/-- A state is the views of its three units and what no unit owns. -/
theorem state_eq_of_views {s t : State} (hcs : s.csAcc = t.csAcc) (hfb : fbView s = fbView t)
    (hfp : fpView s = fpView t) (hreject : s.cmdReject = t.cmdReject) (hsession : s.session = t.session)
    (hpending : s.pending = t.pending) : s = t := by
  obtain ⟨hstate, hacc, hout⟩ := fbView_eq_iff.mp hfb
  obtain ⟨hfp, hbuf, hline, hstatus, hack, hparams⟩ := fpView_eq_iff.mp hfp
  cases s
  cases t
  congr

theorem isRejected_with_pending (i : Instr) (rest : List Raw) (s : State) :
    isRejected i { s with pending := rest } = isRejected i s := by
  cases i <;> rfl

/-- An event does not look at the input still to come. -/
theorem after_with_pending (i : Instr) (rest : List Raw) (s : State) :
    after i { s with pending := rest } = { after i s with pending := rest } := by
  obtain ⟨_, hsession, hpending⟩ := after_keeps i { s with pending := rest }
  obtain ⟨_, hsession', _⟩ := after_keeps i s
  refine state_eq_of_views (after_csAcc_congr i rfl) (after_fbView_congr i rfl) (after_fpView_congr i rfl) ?_
    (hsession.trans hsession'.symm) hpending
  rw [after_cmdReject, isRejected_with_pending]
  exact (after_cmdReject i s).symm

/-- A run of steps on presentations that decode does their events, whatever input follows (R49). -/
theorem stepN_of_decode {rs : List Raw} {is : List Instr} (h : rs.map decode = is.map .ok) (rest : List Raw)
    (s : State) : stepN is.length { s with pending := rs ++ rest } = execAll is { s with pending := rest } := by
  induction is generalizing rs s with
  | nil =>
    rw [List.map_eq_nil_iff.mp h]
    rfl
  | cons i is ih =>
    obtain ⟨r, rs, rfl, hr, hrs⟩ := List.map_eq_cons_iff.mp h
    have hstep : step { s with pending := r :: (rs ++ rest) } = exec i { s with pending := rs ++ rest } :=
      step_of_decode rfl hr
    rw [List.length_cons, stepN, List.cons_append, hstep, exec_eq, andThen_next,
      after_with_pending i (rs ++ rest), ih hrs, execAll_cons, after_with_pending i rest]

/-- Settles O6: the encodings of the events decode to the events. -/
theorem steppingEncodedEventsIsDoingThem : Obligations.SteppingEncodedEventsIsDoingThem := by
  intro is rest s
  exact stepN_of_decode (by simp [decode_encode]) rest s

/-- The presentations of a cycle without RESET that carries a command (R74). -/
theorem cycleEvents_of_command {c : Cycle} (hrst : c.rst = false) (hvalid : c.cmdValid = true)
    (hready : c.cmdReady = true) : cycleEvents c = .cmd (cmdWord c.cmdOp c.cmdData) :: cycleByte c := by
  simp [cycleEvents, cycleCommand, hrst, hvalid, hready]

theorem cycleEvents_of_no_command {c : Cycle} (hrst : c.rst = false)
    (hcommand : ¬ (c.cmdValid = true ∧ c.cmdReady = true)) : cycleEvents c = cycleByte c := by
  rw [← Bool.and_eq_true, Bool.not_eq_true] at hcommand
  simp [cycleEvents, cycleCommand, hrst, hcommand]

theorem cycleByte_of_valid {c : Cycle} (h : c.rxValid = true) : cycleByte c = [.rxb c.rxData] := by
  rw [cycleByte, if_pos h]

theorem cycleByte_of_not_valid {c : Cycle} (h : c.rxValid = false) : cycleByte c = [] := by
  rw [cycleByte, if_neg (by simp [h])]

/-- Settles O48: RESET alone, else the command if there is one and then the byte if there is one. -/
theorem cycleOrdersCommandBeforeByte : Obligations.CycleOrdersCommandBeforeByte := by
  refine fun c => ⟨cycleEvents_of_rst, fun hrst hvalid hready hbyte => ?_, fun hrst hvalid hready hbyte => ?_,
    fun hrst hcommand hbyte => ?_, fun hrst hcommand hbyte => ?_⟩
  · rw [cycleEvents_of_command hrst hvalid hready, cycleByte_of_valid hbyte]
  · rw [cycleEvents_of_command hrst hvalid hready, cycleByte_of_not_valid hbyte]
  · rw [cycleEvents_of_no_command hrst hcommand, cycleByte_of_valid hbyte]
  · rw [cycleEvents_of_no_command hrst hcommand, cycleByte_of_not_valid hbyte]

/-- Two steps through a cycle with a command and a byte, with no other input waiting: the command, then the byte. -/
theorem stepN_presentCycles {c : Cycle} {s : State} {i : Instr} (hpending : s.pending = []) (hrst : c.rst = false)
    (hvalid : c.cmdValid = true) (hready : c.cmdReady = true) (hbyte : c.rxValid = true)
    (hi : ∀ d, decodeFields c.cmdOp d = .ok i) :
    stepN 2 (presentCycles [c] s) = .next (after (.fpByte c.rxData) (after i s)) := by
  have hpresent : presentCycles [c] s = { s with pending := cycleEvents c ++ [] } := by
    simp [presentCycles, hpending]
  have hdecode : (cycleEvents c).map decode = [i, .fpByte c.rxData].map .ok := by
    rw [cycleEvents_of_command hrst hvalid hready, cycleByte_of_valid hbyte, List.map_cons, decode_cmdWord, hi]
    rfl
  have hs : { s with pending := [] } = s := by rw [← hpending]
  have hrun := stepN_of_decode hdecode [] s
  rw [hs, execAll_pair] at hrun
  rw [hpresent]
  exact hrun

/-- A byte received into an empty buffer is stored, as no legal capacity is 0 (R140, R5). -/
theorem takeByte_first {s : State} (h : s.fpState = .collect) (hbuf : s.rxBuf = [])
    (hparams : s.params.wellFormed = true) (b : Byte) : takeByte b s = { s with rxBuf := [b] } := by
  have hdata : ¬ (b = 0x0D#8 ∧ ∃ line, s.rxBuf = line ++ [0x2A#8]) := by simp [hbuf]
  have hroom : s.params.rxCap ≠ .finite s.rxBuf.length := by
    intro hcap
    rw [Config.Params.wellFormed, hcap, hbuf] at hparams
    cases hparams
  rw [takeByte_store h b hdata hroom, hbuf]
  rfl

/-- Settles O49: FP_ABORT latches its fault, so the byte is dropped; FP_CLR empties the buffer, so the byte is its
first. -/
theorem commandWinsOverTheByteOfItsCycle : Obligations.CommandWinsOverTheByteOfItsCycle := by
  intro c s hpending hparams hrst hvalid hready hbyte
  refine ⟨fun hop hs => ?_, fun hop => ?_⟩
  · refine ⟨_, stepN_presentCycles hpending hrst hvalid hready hbyte (i := .fpAbort) (fun d => by rw [hop]; rfl), ?_⟩
    rw [after_fpByte, takeByte_done (after_fpAbort_fpState s), after_fpAbort_of_collect hs]
    exact ⟨rfl, rfl, rfl⟩
  · refine ⟨_, stepN_presentCycles hpending hrst hvalid hready hbyte (i := .fpClr) (fun d => by rw [hop]; rfl), ?_⟩
    have hcleared : (after .fpClr s).params.wellFormed = true := hparams
    rw [after_fpByte, takeByte_first rfl rfl hcleared]
    exact ⟨rfl, rfl⟩

end Sys2Proof.Machine
end

section
/-! PROOFS. What an event leaves alone, and what it can change at all (10_state.md R14, R15, R18; 20_memory.md R44,
R49). -/

namespace Sys2Proof.Machine

open Sys2Proof.Safety

theorem sameOutside_after {i : Instr} (h : i.hw ≠ .all) (s : State) : sameOutside i.hw s (after i s) := by
  refine ⟨fun hu => after_csAcc_other hu h s, fun hu => fbView_eq_iff.mp (after_fbView_other hu h s), fun hu => ?_⟩
  obtain ⟨hfp, hbuf, hline, hstatus, hack, _⟩ := fpView_eq_iff.mp (after_fpView_other hu h s)
  exact ⟨hfp, hbuf, hline, hstatus, hack⟩

/-- Settles O44: unit by unit, and what no event writes. -/
theorem eventsLeaveOtherUnitsAlone : Obligations.EventsLeaveOtherUnitsAlone := by
  intro i s t ht
  rw [← after_of_exec ht]
  exact ⟨fun h => sameOutside_after h s, after_keeps i s⟩

/-- Of two events of different units at most one belongs to a given unit. -/
theorem unitEvents_swap {i j : Instr} (hij : i.hw ≠ j.hw) (hi : i.hw ≠ .all) (hj : j.hw ≠ .all) (u : Hw) :
    unitEvents u [i, j] = unitEvents u [j, i] := by
  by_cases hu : i.hw = u
  · have hju : j.hw ≠ u := fun h => hij (hu.trans h.symm)
    simp [unitEvents, hu, hju, hj]
  · simp [unitEvents, List.filter_cons, hu, hi]

theorem sameState_of_views {s t : State} (hcs : s.csAcc = t.csAcc) (hfb : fbView s = fbView t)
    (hfp : fpView s = fpView t) (hsession : s.session = t.session) (hpending : s.pending = t.pending) : SameState s t :=
  state_eq_of_views hcs hfb hfp rfl hsession hpending

/-- Settles O45: each unit sees only its own event, in either order. -/
theorem eventsOfDifferentUnitsCommute : Obligations.EventsOfDifferentUnitsCommute := by
  intro i j s hij hi hj
  have hswap := unitEvents_swap hij hi hj
  obtain ⟨_, hsession, hpending⟩ := afterAll_keeps [i, j] s
  obtain ⟨_, hsession', hpending'⟩ := afterAll_keeps [j, i] s
  refine ⟨_, _, execAll_eq [i, j] s, execAll_eq [j, i] s, sameState_of_views ?_ ?_ ?_ (hsession.trans hsession'.symm)
    (hpending.trans hpending'.symm)⟩
  · rw [afterAll_csAcc, hswap, ← afterAll_csAcc]
  · rw [afterAll_fbView, hswap, ← afterAll_fbView]
  · rw [afterAll_fpView, hswap, ← afterAll_fpView]

/-- Settles O22: the moves of the builder that are no RESET append what they emit, and each of them is its own
event's. -/
theorem transmitTraceOnlyGrows : Obligations.TransmitTraceOnlyGrows := by
  intro i s t ht hreset
  rw [← after_of_exec ht]
  cases builderMove i s with
  | stays view =>
    obtain ⟨_, _, hout⟩ := fbView_eq_iff.mp view
    exact ⟨⟨[], by rw [hout, List.append_nil]⟩, fun _ => hout⟩
  | starts addr sig own idle view => exact ⟨⟨_, (fbView_eq_iff.mp view).2.2⟩, fun h => absurd own h⟩
  | appends b own busy view => exact ⟨⟨_, (fbView_eq_iff.mp view).2.2⟩, fun h => absurd own h⟩
  | finishes own busy view => exact ⟨⟨_, (fbView_eq_iff.mp view).2.2⟩, fun h => absurd own h⟩
  | resets isReset view => exact absurd isReset hreset

/-- A verdict on a verified line either stands or turns into the other verdict (R150). -/
theorem verdict_changes {old : Status} (h : old = .stOk ∨ old = .stAckMismatch) {ok : Bool}
    (hne : (if ok then .stOk else .stAckMismatch) ≠ old) :
    old = .stOk ∧ (if ok then Status.stOk else .stAckMismatch) = .stAckMismatch ∨
      old = .stAckMismatch ∧ (if ok then Status.stOk else .stAckMismatch) = .stOk := by
  cases ok <;> rcases h with rfl | rfl <;> simp at hne ⊢

/-- Settles O37: each move of the parser names its events and what it writes. -/
theorem onlyTheNamedEventsMoveFp : Obligations.OnlyTheNamedEventsMoveFp := by
  intro i s t ht
  rw [← after_of_exec ht]
  cases parserMove i s with
  | stays view =>
    obtain ⟨hfp, _, hline, hstatus, _⟩ := fpView_eq_iff.mp view
    rw [hfp, hline, hstatus]
    exact ⟨fun hc hd => by simp [hc] at hd, fun hd hc => by simp [hc] at hd, fun _ _ => ⟨rfl, fun h => absurd rfl h⟩⟩
  | clears own view =>
    obtain ⟨hfp, _⟩ := fpView_eq_iff.mp view
    rw [hfp]
    exact ⟨nofun, fun _ _ => own, nofun⟩
  | stores b own collecting data room view =>
    obtain ⟨hfp, _⟩ := fpView_eq_iff.mp view
    rw [hfp, collecting]
    exact ⟨nofun, nofun, nofun⟩
  | latches st line own collecting result view =>
    rw [collecting]
    exact ⟨fun _ _ => own, nofun, nofun⟩
  | judges ok own latched verified view =>
    obtain ⟨hfp, _, hline, hstatus, _⟩ := fpView_eq_iff.mp view
    rw [hfp, latched, hline, hstatus]
    exact ⟨nofun, nofun, fun _ _ => ⟨rfl, fun hne => ⟨own, verdict_changes verified hne⟩⟩⟩
  | keepsFailure own latched failed view =>
    obtain ⟨hfp, _, hline, hstatus, _⟩ := fpView_eq_iff.mp view
    rw [hfp, latched, hline, hstatus]
    exact ⟨nofun, nofun, fun _ _ => ⟨rfl, fun hne => absurd rfl hne⟩⟩

/-- Settles O46: the two answers exclude each other, and a read looks at the line alone. -/
theorem memReadStaysInsideTheLine : Obligations.MemReadStaysInsideTheLine := by
  intro k n s
  refine ⟨fun hin => ?_, fun hout => ?_, fun i t ht hfp hall => ?_⟩
  · rcases memRead_cases k n s with ⟨_, h⟩ | ⟨hlt, _⟩
    · exact h
    · omega
  · rcases memRead_cases k n s with ⟨hle, _⟩ | ⟨_, h⟩
    · omega
    · exact h
  · obtain ⟨_, _, hline, _⟩ := fpView_eq_iff.mp (after_fpView_other hfp hall s)
    rw [← after_of_exec ht, memRead, memRead, hline]

end Sys2Proof.Machine
end

section
/-! PROOFS. Events done again (20_memory.md R47; 42_frame_parse.md R142, R150; 70_reset_and_hazards.md R261). -/

namespace Sys2Proof.Machine

/-- A verdict on a verified line does not look at an earlier one (R150). -/
theorem ackVerdict_over_verdict {s : State} {st : Status} (hs : s.rxStatus = .stOk ∨ s.rxStatus = .stAckMismatch)
    (hst : st = .stOk ∨ st = .stAckMismatch) (ok : Bool) (sig mode : Pair) :
    ackVerdict sig mode (accepted { s with ackOk := ok, rxStatus := st }) = accepted (ackVerdict sig mode s) := by
  rw [ackVerdict_of_verified hs, ackVerdict_of_verified (s := accepted { s with ackOk := ok, rxStatus := st }) hst]
  by_cases hm : ackMatch s.params.ackModeOffset s.rxLine sig mode = true
  · rw [if_pos hm]
    exact if_pos hm
  · rw [if_neg hm]
    exact if_neg hm

theorem ackVerdict_over_failure {s : State} (hs : ¬ (s.rxStatus = .stOk ∨ s.rxStatus = .stAckMismatch)) (ok : Bool)
    (sig mode : Pair) :
    ackVerdict sig mode (accepted { s with ackOk := ok }) = accepted (ackVerdict sig mode s) := by
  rw [ackVerdict_of_failed hs, ackVerdict_of_failed (s := accepted { s with ackOk := ok }) hs]
  rfl

theorem ackVerdict_ackVerdict (sig mode sig' mode' : Pair) (s : State) :
    ackVerdict sig' mode' (accepted (ackVerdict sig mode s)) = accepted (ackVerdict sig' mode' s) := by
  rcases ackVerdict_cases sig mode s with ⟨hs, _, ht⟩ | ⟨hs, _, ht⟩ | ⟨hs, ht⟩
  · rw [ht, ackVerdict_over_verdict hs (.inl rfl)]
  · rw [ht, ackVerdict_over_verdict hs (.inr rfl)]
  · rw [ht, ackVerdict_over_failure hs]

theorem after_ackChk_of_collect {s : State} (h : s.fpState = .collect) (sig mode : Pair) :
    after (.ackChk sig mode) s = rejected s :=
  after_of_exec (exec_ackChk_of_collect h sig mode)

theorem after_ackChk_of_done {s : State} (h : s.fpState = .done) (sig mode : Pair) :
    after (.ackChk sig mode) s = accepted (ackVerdict sig mode s) :=
  after_of_exec (exec_ackChk_of_done h sig mode)

theorem ackVerdict_fpState (sig mode : Pair) (s : State) : (ackVerdict sig mode s).fpState = s.fpState := by
  rcases ackVerdict_cases sig mode s with ⟨_, _, ht⟩ | ⟨_, _, ht⟩ | ⟨_, ht⟩ <;> rw [ht]

theorem after_ackChk_ackChk (sig mode sig' mode' : Pair) (s : State) :
    after (.ackChk sig' mode') (after (.ackChk sig mode) s) = after (.ackChk sig' mode') s := by
  cases hs : s.fpState with
  | collect =>
    rw [after_ackChk_of_collect hs, after_ackChk_of_collect hs, after_ackChk_of_collect (s := rejected s) hs]
    rfl
  | done =>
    have hagain : (accepted (ackVerdict sig mode s)).fpState = .done := (ackVerdict_fpState sig mode s).trans hs
    rw [after_ackChk_of_done hs, after_ackChk_of_done hs, after_ackChk_of_done hagain, ackVerdict_ackVerdict]
    rfl

/-- Settles O31: both are rejected while collecting, and in `FP_DONE` the second verdict does not see the first. -/
theorem laterAckChkReplacesTheVerdict : Obligations.LaterAckChkReplacesTheVerdict := by
  intro sig mode sig' mode' s
  rw [execAll_pair, after_ackChk_ackChk, exec_eq]

theorem after_nop_nop (s : State) : after .nop (after .nop s) = after .nop s := rfl

/-- Accepted or rejected, FB_START leaves a frame open (R112). -/
theorem after_fbStart_fbState (addr sig : Pair) (s : State) : (after (.fbStart addr sig) s).fbState = .param := by
  cases hs : s.fbState with
  | idle => rw [after_fbStart_of_idle hs]
  | param => rw [after_of_exec (exec_fbStart_of_param hs addr sig)]; exact hs

/-- Settles O38: each idempotent event by its own law; FB_START leaves a frame open and FB_END leaves none, so that the
same event again is rejected. -/
theorem repeatedEvents : Obligations.RepeatedEvents := by
  intro s i b addr sig
  refine ⟨fun hi => ?_, ?_, fun t ht => ?_, fun t ht => ?_⟩
  · rw [execAll_pair, exec_eq]
    rcases hi with rfl | rfl | rfl | rfl | rfl | ⟨g, m, rfl⟩
    · rw [after_nop_nop]
    · rw [after_csClr_csClr]
    · rw [after_fpClr_fpClr]
    · rw [after_fpAbort_fpAbort]
    · rw [after_reset_reset]
    · rw [after_ackChk_ackChk]
  · rw [execAll_pair, after_csUpd_csUpd]
  · rw [← after_of_exec ht]
    exact exec_fbStart_of_param (after_fbStart_fbState addr sig s) addr sig
  · exact exec_fbEnd_of_idle (fbEnd_leaves_idle ht).1

/-- Settles O39: the bytes are dropped and the late FP_ABORT finds a latched result. -/
theorem staleResultStaysWithoutClear : Obligations.StaleResultStaysWithoutClear := by
  intro bs s hs
  have hdropped : accepted (afterAll (rxSeqEvents bs) s) = { s with cmdReject := false } := by
    rw [afterAll_rx_dropped bs s hs]
    split <;> rfl
  have hdone : (afterAll (rxSeqEvents bs) s).fpState = .done := by
    have hfp := congrArg State.fpState hdropped
    exact hfp.trans hs
  rw [execAll_eq, afterAll_append, afterAll_cons, after_fpAbort_of_done hdone, hdropped]
  rfl

end Sys2Proof.Machine
end

section
/-! PROOFS. The laws of the checksum, and the checksum generator (40_checksum.md R91, R98; 42_frame_parse.md R139). -/

namespace Sys2Proof.Machine

/-- A byte folded in twice cancels. -/
theorem xor_xor_self (a b : Byte) : a ^^^ (a ^^^ b) = b := by
  rw [← BitVec.xor_assoc, BitVec.xor_self, BitVec.zero_xor]

/-- The order of the bytes does not matter (R91 (c)). -/
theorem xorFold_perm {s t : Bytes} (h : s.Perm t) : xorFold s = xorFold t := by
  induction h with
  | nil => rfl
  | cons b _ ih => rw [xorFold_cons, xorFold_cons, ih]
  | swap a b s =>
    simp only [xorFold_cons]
    ac_rfl
  | trans _ _ ih ih' => exact ih.trans ih'

/-- A replaced byte is folded out and the new one in (R91 (e)). -/
theorem xorFold_set {s : Bytes} {k : Nat} {old : Byte} (h : s[k]? = some old) (new : Byte) :
    xorFold (s.set k new) = xorFold s ^^^ old ^^^ new := by
  induction s generalizing k with
  | nil => cases h
  | cons b s ih =>
    cases k with
    | zero =>
      obtain rfl : b = old := by simpa using h
      rw [List.set_cons_zero, xorFold_cons, xorFold_cons]
      calc new ^^^ xorFold s = b ^^^ (b ^^^ (xorFold s ^^^ new)) := by rw [xor_xor_self, BitVec.xor_comm]
        _ = b ^^^ xorFold s ^^^ b ^^^ new := by ac_rfl
    | succ k =>
      rw [List.set_cons_succ, xorFold_cons, xorFold_cons, ih (by simpa using h)]
      ac_rfl

/-- A changed byte always shows (R91 (e)). -/
theorem xorFold_set_ne {s : Bytes} {k : Nat} {old new : Byte} (h : s[k]? = some old) (hne : new ≠ old) :
    xorFold (s.set k new) ≠ xorFold s := by
  rw [xorFold_set h, BitVec.xor_assoc]
  intro heq
  have hdiff : old ^^^ new = 0x00#8 := by
    rw [← xor_xor_self (xorFold s) (old ^^^ new), heq, BitVec.xor_self]
  exact hne (BitVec.xor_eq_zero_iff.mp hdiff).symm

/-- Two changes of equal difference cancel, the weakness of the checksum (R91 (f)). -/
theorem xorFold_set_set {s : Bytes} {j k : Nat} {a b : Byte} (hjk : j ≠ k) (ha : s[j]? = some a)
    (hb : s[k]? = some b) (diff : Byte) : xorFold ((s.set j (a ^^^ diff)).set k (b ^^^ diff)) = xorFold s := by
  rw [xorFold_set (by rw [List.getElem?_set_ne hjk]; exact hb), xorFold_set ha]
  calc xorFold s ^^^ a ^^^ (a ^^^ diff) ^^^ b ^^^ (b ^^^ diff)
      = a ^^^ (a ^^^ (b ^^^ (b ^^^ (diff ^^^ (diff ^^^ xorFold s))))) := by ac_rfl
    _ = xorFold s := by simp only [xor_xor_self]

/-- An inserted pair of equal bytes cancels (R91 (g)). -/
theorem xorFold_inserted_pair (s t u : Bytes) (b : Byte) :
    xorFold (s ++ [b] ++ t ++ [b] ++ u) = xorFold (s ++ t ++ u) := by
  simp only [xorFold_append, xorFold_singleton]
  calc xorFold s ^^^ b ^^^ xorFold t ^^^ b ^^^ xorFold u
      = b ^^^ (b ^^^ (xorFold s ^^^ xorFold t ^^^ xorFold u)) := by ac_rfl
    _ = xorFold s ^^^ xorFold t ^^^ xorFold u := xor_xor_self _ _

/-- Settles O11: law by law. -/
theorem xorFoldLaws : Obligations.XorFoldLaws := by
  refine ⟨xorFold_append, fun _ _ => xorFold_perm, fun s => ?_,
    fun _ _ _ new h => ⟨xorFold_set h new, xorFold_set_ne h⟩,
    fun _ _ _ _ _ diff hjk ha hb => xorFold_set_set hjk ha hb diff, xorFold_inserted_pair⟩
  rw [xorFold_append, xorFold_singleton, BitVec.xor_self]

/-- Settles O36: what was stored after the protected part is folded out again, in the reverse order. -/
theorem runningAccumulatorAgrees : Obligations.RunningAccumulatorAgrees := by
  intro body f0 f1
  have hacc : xorFold (body ++ [f0, f1] ++ [0x2A#8]) ^^^ 0x2A#8 ^^^ f0 ^^^ f1 = xorFold body := by
    simp only [xorFold_append, xorFold_cons, xorFold_nil, BitVec.xor_zero]
    calc xorFold body ^^^ (f0 ^^^ f1) ^^^ 0x2A#8 ^^^ 0x2A#8 ^^^ f0 ^^^ f1
        = 0x2A#8 ^^^ (0x2A#8 ^^^ (f0 ^^^ (f0 ^^^ (f1 ^^^ (f1 ^^^ xorFold body))))) := by ac_rfl
      _ = xorFold body := by simp only [xor_xor_self]
  exact ⟨hacc, by rw [hacc]; exact verify_append body [f0, f1] rfl⟩

/-- A run of CS_UPD folds its bytes into the accumulator (R96). -/
theorem afterAll_csUpd (bs : Bytes) (s : State) : (afterAll (bs.map .csUpd) s).csAcc = s.csAcc ^^^ xorFold bs := by
  induction bs generalizing s with
  | nil => exact BitVec.xor_zero.symm
  | cons b bs ih =>
    rw [List.map_cons, afterAll_cons, ih, after_csUpd, xorFold_cons, BitVec.xor_assoc]

theorem afterAll_csumEvents (bs : Bytes) (s : State) : (afterAll (csumEvents bs) s).csAcc = xorFold bs := by
  rw [csumEvents, afterAll_cons, afterAll_csUpd, after_csClr, BitVec.zero_xor]

/-- Settles O16: the accumulator sees the generator's own events only. -/
theorem csumComputesTheChecksum : Obligations.CsumComputesTheChecksum := by
  intro is bs s
  refine ⟨fun h => ?_, fun h => ?_⟩
  · have hacc : (afterAll is s).csAcc = xorFold bs := by rw [afterAll_csAcc, h, afterAll_csumEvents]
    exact ⟨_, execAll_eq is s, hacc, by rw [csHex, hacc]⟩
  · exact ⟨_, execAll_eq is s, by rw [afterAll_csAcc, h, afterAll_csUpd]⟩

end Sys2Proof.Machine
end

section
/-! PROOFS. The built request, and BUILD with the events of the other units between its own (41_frame_build.md R110 to
R117). -/

namespace Sys2Proof.Machine

open Sys2Proof.Safety

theorem requestBody_eq (addr sig : Pair) (a b : Bytes) : requestBody addr sig a b = frameHead addr sig ++ (a ++ b) :=
  List.append_assoc ..

/-- Only the joined parameters matter (R111 (b)). -/
theorem buildRequest_joined (addr sig : Pair) (a b : Bytes) :
    buildRequest addr sig a b = buildRequest addr sig (a ++ b) [] := by
  rw [buildRequest, buildRequest, requestBody_eq, requestBody_eq, List.append_nil]

theorem buildRequest_length (addr sig : Pair) (a b : Bytes) :
    (buildRequest addr sig a b).length = 9 + a.length + b.length := by
  simp only [buildRequest_eq, requestBody_eq, List.length_append, frameHead_length, hex2_length, terminator_length]
  omega

theorem buildRequest_wellFormed (addr sig : Pair) (a b : Bytes) :
    wellFormedFrame (buildRequest addr sig a b) = true := by
  rw [buildRequest, requestBody_eq]
  exact wellFormedFrame_of_body _ (by simp) rfl

/-- Settles O20: the concatenation is the definition; the rest is `buildRequest_length`, `buildRequest_joined` and
`buildRequest_wellFormed`. -/
theorem buildRequestIsWellFormed : Obligations.BuildRequestIsWellFormed := by
  refine fun addr sig a b => ⟨fun body hbody => ?_, buildRequest_length addr sig a b, buildRequest_joined addr sig a b,
    buildRequest_wellFormed addr sig a b⟩
  rw [hbody]
  rfl

theorem verify_line_buildRequest (addr sig : Pair) (a b : Bytes) :
    verify (lineOf (buildRequest addr sig a b)) = true := by
  rw [lineOf_buildRequest]
  exact (verify_append _ _ (hex2_length _)).mpr rfl

/-- One changed byte before the checksum field is always found (R117). -/
theorem verify_set_body {body : Bytes} {k : Nat} {old new : Byte} (h : body[k]? = some old) (hne : new ≠ old) :
    verify (body.set k new ++ hex2 (xorFold body)) = false := by
  rw [← Bool.not_eq_true, verify_append _ _ (hex2_length _), hex2_inj]
  exact fun heq => xorFold_set_ne h hne heq.symm

/-- The terminator is no pair of digits, so a line that still has it fails (R117). -/
theorem verify_append_terminator (s : Bytes) : verify (s ++ terminator) = false := by
  have hstar : ∀ n, Config.term0 ≠ hexDigit n := by decide
  exact verify_of_not_hexDigit (.inl hstar) s

/-- Settles O23: the request's line is its body and the digits of its checksum. -/
theorem builtRequestVerifies : Obligations.BuiltRequestVerifies := by
  refine fun addr sig a b => ⟨verify_line_buildRequest addr sig a b, fun k old new hk hold hne => ?_,
    verify_append_terminator _⟩
  rw [lineOf_buildRequest] at hk hold ⊢
  have hbody : k < (requestBody addr sig a b).length := by
    rw [List.length_append, hex2_length] at hk
    omega
  rw [List.getElem?_append_left hbody] at hold
  rw [List.set_append_left k new hbody]
  exact verify_set_body hold hne

theorem buildEvents_eq (addr sig : Pair) (a b : Bytes) :
    buildEvents addr sig a b = .fbStart addr sig :: ((a ++ b).map .fbParam ++ [.fbEnd]) := by
  rw [buildEvents, List.map_append]

/-- FB_END on the frame whose bytes `tx_acc` folds (R114). -/
theorem fbView_after_fbEnd {s : State} (h : s.fbState = .param) :
    fbView (after .fbEnd s) = (.idle, s.txAcc, s.txOut ++ frameTail s.txAcc) := by
  rw [after_fbEnd_of_param h]
  rfl

/-- BUILD from an idle builder (R115). -/
theorem fbView_afterAll_build {s : State} (h : s.fbState = .idle) (addr sig : Pair) (a b : Bytes) :
    fbView (afterAll (buildEvents addr sig a b) s) =
      (.idle, xorFold (requestBody addr sig a b), s.txOut ++ buildRequest addr sig a b) := by
  obtain ⟨hopen, hacc, hout⟩ := fbView_eq_iff.mp (fbView_after_fbStart h addr sig)
  obtain ⟨hbusy, hacc', hout'⟩ := fbView_eq_iff.mp (afterAll_params (a ++ b) _ hopen)
  have hbody : xorFold (requestBody addr sig a b) = xorFold (frameHead addr sig) ^^^ xorFold (a ++ b) := by
    rw [requestBody_eq, xorFold_append]
  rw [buildEvents_eq, afterAll_cons, afterAll_append, afterAll_cons]
  refine (fbView_after_fbEnd hbusy).trans ?_
  rw [hacc', hout', hacc, hout, ← hbody, buildRequest_eq, requestBody_eq, frameTail]
  simp only [List.append_assoc]

/-- A sequence with no rejected event, event by event (R76). -/
theorem noneRejected_cons (i : Instr) (is : List Instr) (s : State) :
    noneRejected s (i :: is) = (!isRejected i s && noneRejected (after i s) is) := by
  rw [noneRejected, exec_eq, ← after_cmdReject]

theorem noneRejected_append (is js : List Instr) (s : State) :
    noneRejected s (is ++ js) = (noneRejected s is && noneRejected (afterAll is s) js) := by
  induction is generalizing s with
  | nil => rfl
  | cons i is ih => rw [List.cons_append, noneRejected_cons, noneRejected_cons, ih, afterAll_cons, Bool.and_assoc]

theorem noneRejected_params (bs : Bytes) {s : State} (h : s.fbState = .param) :
    noneRejected s (bs.map .fbParam) = true := by
  induction bs generalizing s with
  | nil => rfl
  | cons b bs ih =>
    have hnext : (after (.fbParam b) s).fbState = .param := by rw [after_fbParam_of_param h]; exact h
    rw [List.map_cons, noneRejected_cons, ih hnext, isRejected, h]
    rfl

theorem noneRejected_build {s : State} (h : s.fbState = .idle) (addr sig : Pair) (a b : Bytes) :
    noneRejected s (buildEvents addr sig a b) = true := by
  have hopen := after_fbStart_fbState addr sig s
  obtain ⟨hbusy, _⟩ := fbView_eq_iff.mp (afterAll_params (a ++ b) _ hopen)
  rw [buildEvents_eq, noneRejected_cons, noneRejected_append, noneRejected_params _ hopen, noneRejected_cons,
    isRejected, isRejected, h, hbusy]
  rfl

/-- Whether an event of the builder is rejected is seen in the builder's state. -/
theorem isRejected_congr_fb {i : Instr} (hi : i.hw = .fb) {s t : State} (h : fbView s = fbView t) :
    isRejected i s = isRejected i t := by
  have hstate : s.fbState = t.fbState := congrArg Prod.fst h
  cases i with
  | fbStart _ _ | fbParam _ | fbEnd => simp only [isRejected, hstate]
  | nop | csClr | csUpd _ | fpClr | fpAbort | ackChk _ _ | fpByte _ | reset | reserved9 | reservedA | reservedB
  | reservedC | reservedD | reservedE | reservedF => cases hi

theorem unitEvents_cons_self (i : Instr) (is : List Instr) : unitEvents i.hw (i :: is) = i :: unitEvents i.hw is :=
  List.filter_cons_of_pos (by simp)

/-- An event of the builder in a mixed sequence is accepted when the builder's own sequence has no rejected event. -/
theorem not_isRejected_of_unitEvents {before later : List Instr} {i : Instr} {s : State} (hi : i.hw = .fb)
    (h : noneRejected s (unitEvents .fb (before ++ i :: later)) = true) : isRejected i (afterAll before s) = false := by
  have hown : unitEvents .fb (i :: later) = i :: unitEvents .fb later := hi ▸ unitEvents_cons_self i later
  rw [unitEvents_append, hown, noneRejected_append, noneRejected_cons] at h
  rw [isRejected_congr_fb hi (afterAll_fbView before s)]
  simp only [Bool.and_eq_true, Bool.not_eq_true'] at h
  exact h.2.1

/-- Settles O21: the builder sees only its own events, and these are BUILD. -/
theorem buildEmitsTheRequest : Obligations.BuildEmitsTheRequest := by
  intro is addr sig a b s hidle his
  have hview := (afterAll_fbView is s).trans (his ▸ fbView_afterAll_build hidle addr sig a b)
  obtain ⟨hstate, hacc, hout⟩ := fbView_eq_iff.mp hview
  refine ⟨_, execAll_eq is s, hout, hstate, hacc, fun before later i u v hsplit hi hu hv => ?_⟩
  rw [execAll_eq] at hu
  cases hu
  rw [← after_of_exec hv, after_cmdReject]
  apply not_isRejected_of_unitEvents (later := later) hi
  rw [← hsplit, his]
  exact noneRejected_build hidle addr sig a b

end Sys2Proof.Machine
end

section
/-! PROOFS. The host contract (70_reset_and_hazards.md R253, R260 to R264). -/

namespace Sys2Proof.Machine

open Sys2Proof.Safety

/-- What the monitor knows of the builder: a frame is open exactly while the host builds its request. -/
def PhaseFits (ph : HostPhase) (s : State) : Prop := s.fbState = .param ↔ ph = .building

/-- What the contract allows is not rejected (R260 to R264, R76). -/
theorem not_isRejected_of_allowed {ph : HostPhase} {s : State} {i : Instr} (hph : PhaseFits ph s)
    (h : contractAllows ph s i = true) : isRejected i s = false := by
  cases i with
  | fbStart addr sig =>
    have hcleared : ph = .cleared := by simpa [contractAllows] using h
    have hbusy : s.fbState ≠ .param := mt hph.mp (by simp [hcleared])
    simpa [isRejected] using hbusy
  | fbParam _ | fbEnd =>
    have hbuilding : ph = .building := by simpa [contractAllows] using h
    simp [isRejected, hph.mpr hbuilding]
  | ackChk sig mode =>
    have hdone : s.fpState = .done := by simpa [contractAllows, rxDone] using h
    simp [isRejected, hdone]
  | reserved9 | reservedA | reservedB | reservedC | reservedD | reservedE | reservedF => cases h
  | nop | csClr | csUpd _ | fpClr | fpAbort | fpByte _ | reset => rfl

theorem phaseFits_of_fbView {ph : HostPhase} {s t : State} (h : fbView t = fbView s) (hph : PhaseFits ph s) :
    PhaseFits ph t := by
  have hstate : t.fbState = s.fbState := congrArg Prod.fst h
  rw [PhaseFits, hstate]
  exact hph

theorem phaseFits_idle {ph : HostPhase} {s : State} (hs : s.fbState = .idle) (hph : ph ≠ .building) :
    PhaseFits ph s := by
  simp [PhaseFits, hs, hph]

/-- An FP_CLR is allowed in any phase but the building one (R261). -/
theorem phaseFits_fpClr {ph : HostPhase} {s : State} (hph : PhaseFits ph s)
    (h : contractAllows ph s .fpClr = true) : PhaseFits .cleared s := by
  have hne : ph ≠ .building := by
    rintro rfl
    cases h
  simp [PhaseFits, mt hph.mp hne]

/-- The builder opens and closes its frame where the host begins and ends its request (R262). -/
theorem phaseFits_after {ph : HostPhase} {s : State} {i : Instr} (hph : PhaseFits ph s)
    (h : contractAllows ph s i = true) : PhaseFits (contractNext ph i) (after i s) := by
  cases i with
  | fbStart addr sig => simp [PhaseFits, contractNext, after_fbStart_fbState]
  | fbParam b =>
    have hbuilding : ph = .building := by simpa [contractAllows] using h
    simp [PhaseFits, contractNext, hbuilding, after_fbParam_of_param (hph.mpr hbuilding), hph.mpr hbuilding]
  | fbEnd => exact phaseFits_idle (fbEnd_leaves_idle (exec_eq .fbEnd s)).1 nofun
  | reset => exact phaseFits_idle rfl nofun
  | fpClr => exact phaseFits_of_fbView (s := s) rfl (phaseFits_fpClr hph h)
  | nop | csClr | csUpd _ | fpAbort | ackChk _ _ | fpByte _ | reserved9 | reservedA | reservedB | reservedC
  | reservedD | reservedE | reservedF =>
    exact phaseFits_of_fbView (after_fbView_other (by simp [Instr.hw]) (by simp [Instr.hw]) s) hph

theorem contractSoFar_cons (ph : HostPhase) (s : State) (i : Instr) (is : List Instr) :
    contractSoFar ph s (i :: is) = (contractAllows ph s i && contractSoFar (contractNext ph i) (after i s) is) := by
  rw [contractSoFar, exec_eq]

theorem noneRejected_of_contractSoFar {ph : HostPhase} {s : State} {is : List Instr} (hph : PhaseFits ph s)
    (h : contractSoFar ph s is = true) : noneRejected s is = true := by
  induction is generalizing ph s with
  | nil => rfl
  | cons i is ih =>
    rw [contractSoFar_cons, Bool.and_eq_true] at h
    obtain ⟨hallowed, hrest⟩ := h
    rw [noneRejected_cons, not_isRejected_of_allowed hph hallowed, ih (phaseFits_after hph hallowed) hrest]
    rfl

/-- A whole run that keeps to the contract, taken apart (R253). -/
theorem contractKept_iff (ph : HostPhase) (s : State) (is : List Instr) :
    contractKept ph s is = true ↔
      contractSoFar ph s is = true ∧ contractEnds (phaseAfter ph is) (afterAll is s) = true := by
  rw [contractKept, execAll_eq, Bool.and_eq_true]

theorem contractEnds_iff (ph : HostPhase) (s : State) :
    contractEnds ph s = true ↔ quiescent s = true ∧ (ph = .awaiting → transactionComplete s = true) := by
  rw [contractEnds, Bool.and_eq_true, Bool.or_eq_true, bne_iff_ne, ← imp_iff_not_or]

/-- Settles O60: from an idle builder the monitor's phase fits, and stays so along the run; the end of a whole run is
what the monitor asks of it. -/
theorem contractHostIsNeverRejected : Obligations.ContractHostIsNeverRejected := by
  intro is s hidle
  have hph : PhaseFits .between s := phaseFits_idle hidle nofun
  refine ⟨noneRejected_of_contractSoFar hph, fun h => ?_⟩
  obtain ⟨hsofar, hends⟩ := (contractKept_iff _ _ _).mp h
  exact ⟨noneRejected_of_contractSoFar hph hsofar, _, execAll_eq is s, (contractEnds_iff _ _).mp hends⟩

end Sys2Proof.Machine
end

section
/-! PROOFS. Received bytes from FP_CLR on (42_frame_parse.md R130, R131, R143; 41_frame_build.md R117). -/

namespace Sys2Proof.Machine

theorem recvEvents_append (bs cs : Bytes) : recvEvents (bs ++ cs) = recvEvents bs ++ rxSeqEvents cs :=
  congrArg (Instr.fpClr :: ·) List.map_append

/-- Bytes without a terminator pair that fit are all still being collected (R140). -/
theorem fpView_afterAll_recv_open {bs : Bytes} (hbs : hasTerminator bs = false) (s : State)
    (hcap : ∀ cap, s.params.rxCap = .finite cap → bs.length ≤ cap) :
    fpView (afterAll (recvEvents bs) s) = (.collect, bs, [], .stNone, false, s.params) :=
  afterAll_rx_collects bs (after .fpClr s) rfl hbs hcap

/-- What is latched stays through any bytes (R140). -/
theorem fpView_afterAll_rx_dropped (bs : Bytes) {s : State} (h : s.fpState = .done) :
    fpView (afterAll (rxSeqEvents bs) s) = fpView s := by
  rw [afterAll_rx_dropped bs s h]
  split <;> rfl

/-- The carriage return after a line and its `*` latches the line with its verdict (R140, R144). -/
theorem fpView_after_terminator {line : Bytes} {s : State} {p : Config.Params}
    (h : fpView s = (.collect, line ++ [0x2A#8], [], .stNone, false, p)) :
    fpView (after (.fpByte 0x0D#8) s) = (.done, [], line, judge line, false, p) := by
  obtain ⟨hfp, hbuf, _, _, hack, hparams⟩ := fpView_eq_iff.mp h
  rw [after_fpByte, takeByte_complete hfp line hbuf, complete_eq]
  exact fpView_eq_iff.mpr ⟨rfl, rfl, rfl, rfl, hack, hparams⟩

/-- A line with its terminator, and whatever follows it, leaves the line with its verdict (R143). -/
theorem fpView_afterAll_recv_line {line : Bytes} (hline : hasTerminator line = false) (rest : Bytes) (s : State)
    (hcap : ∀ cap, s.params.rxCap = .finite cap → line.length + 1 ≤ cap) :
    fpView (afterAll (recvEvents (line ++ [0x2A#8, 0x0D#8] ++ rest)) s) =
      (.done, [], line, judge line, false, s.params) := by
  have hstarred := fpView_afterAll_recv_open (hasTerminator_star hline) s (by simpa using hcap)
  have hcompleted := fpView_after_terminator hstarred
  have hsplit : line ++ [0x2A#8, 0x0D#8] ++ rest = (line ++ [0x2A#8]) ++ 0x0D#8 :: rest := by simp
  rw [hsplit, recvEvents_append, afterAll_append]
  exact (fpView_afterAll_rx_dropped rest (fpView_eq_iff.mp hcompleted).1).trans hcompleted

/-- Settles O33: SPLITLINE gives a line exactly where there is a terminator pair. -/
theorem receivedStreamIsSplitAtItsTerminator : Obligations.ReceivedStreamIsSplitAtItsTerminator := by
  intro bs s hcap
  refine ⟨_, execAll_eq (recvEvents bs) s, ?_⟩
  have hroom {n : Nat} : ∀ cap, s.params.rxCap = .finite cap → n ≤ cap := by simp [hcap]
  cases hsplit : splitLine bs with
  | none =>
    have hopen := fpView_afterAll_recv_open ((hasTerminator_iff_splitLine bs).mpr hsplit) s hroom
    obtain ⟨hfp, hbuf, hline, hstatus, hack, _⟩ := fpView_eq_iff.mp hopen
    exact ⟨hfp, hbuf, hline, hstatus, hack⟩
  | some cut =>
    obtain ⟨line, rest⟩ := cut
    obtain ⟨rfl, hterm⟩ := splitLine_parts hsplit
    obtain ⟨hfp, hbuf, hline, hstatus, hack, _⟩ := fpView_eq_iff.mp (fpView_afterAll_recv_line hterm rest s hroom)
    exact ⟨hfp, hline, hbuf, hack, hstatus.trans (judge_eq line)⟩

/-- Settles O34: the parser sees only its own events, and these are RECV. -/
theorem recvLatchesTheLine : Obligations.RecvLatchesTheLine := by
  intro is line s hterm hcap his
  have hrecv := fpView_afterAll_recv_line hterm [] s hcap
  rw [List.append_nil, ← his, ← afterAll_fpView] at hrecv
  obtain ⟨hfp, hbuf, hline, hstatus, hack, _⟩ := fpView_eq_iff.mp hrecv
  exact ⟨_, execAll_eq is s, hfp, hline, hbuf, hack, hstatus.trans (judge_eq line)⟩

/-- The digits of a checksum complete no terminator pair. -/
theorem hasTerminator_append_hex2 {body : Bytes} (h : hasTerminator body = false) (v : Byte) :
    hasTerminator (body ++ hex2 v) = false := by
  have hdigit : ∀ n, (hexDigit n == Config.term1) = false := by decide
  have hcut : body ++ hex2 v = (body ++ [hexHi v]) ++ [hexLo v] := by simp [hex2]
  rw [hcut, hasTerminator_snoc, hasTerminator_snoc, h, hexHi, hexLo, hdigit, hdigit]
  simp only [Bool.and_false, Bool.or_false]

theorem judge_of_verify {line : Bytes} (h : verify line = true) : judge line = .stOk := by
  rcases judge_cases line with ⟨rfl, _⟩ | ⟨_, _, hj⟩ | ⟨_, hv, _⟩
  · rw [verify_short (by decide)] at h
    cases h
  · exact hj
  · rw [h] at hv
    cases hv

/-- Settles O35: the request is its line and the terminator; the line verifies, so it is latched with `ST_OK`, and its
fields stand where R137 and R138 look for them. -/
theorem emittedRequestIsReceivedBack : Obligations.EmittedRequestIsReceivedBack := by
  intro addr sig a b s hbody hcap
  have hterm : hasTerminator (lineOf (buildRequest addr sig a b)) = false := by
    rw [lineOf_buildRequest]
    exact hasTerminator_append_hex2 hbody _
  have hframe : lineOf (buildRequest addr sig a b) ++ [0x2A#8, 0x0D#8] ++ [] = buildRequest addr sig a b := by
    rw [lineOf_buildRequest, List.append_nil]
    rfl
  have hrecv := fpView_afterAll_recv_line hterm [] s hcap
  rw [hframe, judge_of_verify (verify_line_buildRequest addr sig a b)] at hrecv
  obtain ⟨_, _, hline, hstatus, _, _⟩ := fpView_eq_iff.mp hrecv
  have hlayout : lineOf (buildRequest addr sig a b) =
      [0x40#8, addr.c0, addr.c1, sig.c0, sig.c1] ++ (a ++ b) ++ hex2 (xorFold (requestBody addr sig a b)) := by
    rw [lineOf_buildRequest, requestBody_eq, frameHead_eq]
  obtain ⟨haddr, hsig, hpayload, _⟩ := fieldOutputs_of_layout (hline.trans hlayout)
  exact ⟨_, execAll_eq _ s, hstatus, hline, (rxHeadOk_iff _).mpr (by rw [hline, hlayout]; rfl), haddr, hsig, hpayload⟩

end Sys2Proof.Machine
end

section
/-! PROOFS. What FP latches in one exchange with the transport (43_session_commands.md R175; log 13, log 14). -/

namespace Sys2Proof.Machine

/-- The bytes FP is given in an exchange: the response only when the request was written. -/
def arrivedBytes (x : Exchange) : Bytes := x.early ++ if x.writeOk then x.response else []

theorem arrivedBytes_of_writeOk {x : Exchange} (h : x.writeOk = true) : arrivedBytes x = x.early ++ x.response := by
  rw [arrivedBytes, if_pos h]

/-- The parser's part of a transaction is RECV of the arrived bytes, then FP_ABORT. -/
theorem exchangeEvents_eq (x : Exchange) : exchangeEvents x = recvEvents (arrivedBytes x) ++ [.fpAbort] := by
  cases hw : x.writeOk <;> simp [exchangeEvents, arrivedBytes, recvEvents, rxSeqEvents, hw]

theorem afterAll_exchangeEvents (x : Exchange) (s : State) :
    afterAll (exchangeEvents x) s = after .fpAbort (afterAll (recvEvents (arrivedBytes x)) s) := by
  rw [exchangeEvents_eq, afterAll_append]
  rfl

theorem fpView_after_fpAbort_of_done {s : State} (h : s.fpState = .done) : fpView (after .fpAbort s) = fpView s := by
  rw [after_fpAbort_of_done h]
  rfl

theorem fpView_after_fpAbort_of_collect {s : State} (h : s.fpState = .collect) :
    fpView (after .fpAbort s) = (.done, [], [], .stTransportFault, s.ackOk, s.params) := by
  rw [after_fpAbort_of_collect h]
  rfl

/-- A fitting line, its terminator and whatever follows. -/
theorem fpView_exchange_line {x : Exchange} {line rest : Bytes} {s : State} (hline : hasTerminator line = false)
    (hcap : ∀ cap, s.params.rxCap = .finite cap → line.length + 1 ≤ cap)
    (hx : arrivedBytes x = line ++ [0x2A#8, 0x0D#8] ++ rest) :
    fpView (afterAll (exchangeEvents x) s) = (.done, [], line, judge line, false, s.params) := by
  have hrecv := fpView_afterAll_recv_line hline rest s hcap
  rw [afterAll_exchangeEvents, hx, fpView_after_fpAbort_of_done (fpView_eq_iff.mp hrecv).1, hrecv]

/-- Fitting bytes without a terminator: FP_ABORT latches the fault. -/
theorem fpView_exchange_open {x : Exchange} {s : State} (hx : hasTerminator (arrivedBytes x) = false)
    (hcap : ∀ cap, s.params.rxCap = .finite cap → (arrivedBytes x).length ≤ cap) :
    fpView (afterAll (exchangeEvents x) s) = (.done, [], [], .stTransportFault, false, s.params) := by
  obtain ⟨hfp, _, _, _, hack, hparams⟩ := fpView_eq_iff.mp (fpView_afterAll_recv_open hx s hcap)
  rw [afterAll_exchangeEvents, fpView_after_fpAbort_of_collect hfp, hack, hparams]

/-- The byte that finds the buffer full and ends nothing overruns it (R140). -/
theorem fpView_after_overrun {s : State} {buf : Bytes} {b : Byte} {p : Config.Params}
    (h : fpView s = (.collect, buf, [], .stNone, false, p)) (hdata : hasTerminator (buf ++ [b]) = false)
    (hfull : p.rxCap = .finite buf.length) :
    fpView (after (.fpByte b) s) = (.done, [], [], .stOverrun, false, p) := by
  obtain ⟨hfp, rfl, _, _, hack, rfl⟩ := fpView_eq_iff.mp h
  have hends : ¬ (b = 0x0D#8 ∧ ∃ line, s.rxBuf = line ++ [0x2A#8]) := by
    rintro ⟨rfl, line, hbuf⟩
    rw [hbuf, hasTerminator_snoc, List.getLast?_concat] at hdata
    simp [Config.term0, Config.term1] at hdata
  rw [after_fpByte, takeByte_overrun hfp b hends hfull]
  exact fpView_eq_iff.mpr ⟨rfl, rfl, rfl, rfl, hack, rfl⟩

/-- More bytes than the buffer holds, without a terminator among those up to the one too many. -/
theorem fpView_exchange_overrun {x : Exchange} {s : State} {cap : Nat} (hcap : s.params.rxCap = .finite cap)
    (hlong : cap < (arrivedBytes x).length) (hx : hasTerminator ((arrivedBytes x).take (cap + 1)) = false) :
    fpView (afterAll (exchangeEvents x) s) = (.done, [], [], .stOverrun, false, s.params) := by
  have hlen : ((arrivedBytes x).take cap).length = cap := List.length_take_of_le (by omega)
  have hcut : arrivedBytes x =
      (arrivedBytes x).take cap ++ (arrivedBytes x)[cap] :: (arrivedBytes x).drop (cap + 1) := by
    rw [← List.drop_eq_getElem_cons hlong, List.take_append_drop]
  rw [List.take_succ_eq_append_getElem hlong] at hx
  have hfull := fpView_afterAll_recv_open (hasTerminator_prefix hx) s fun n hn => by
    rw [hcap] at hn
    cases hn
    omega
  have hover := fpView_after_overrun hfull hx (by rw [hlen, hcap])
  have hrecv : fpView (afterAll (recvEvents (arrivedBytes x)) s) = (.done, [], [], .stOverrun, false, s.params) := by
    rw [hcut, recvEvents_append, afterAll_append]
    exact (fpView_afterAll_rx_dropped _ (fpView_eq_iff.mp hover).1).trans hover
  rw [afterAll_exchangeEvents, fpView_after_fpAbort_of_done (fpView_eq_iff.mp hrecv).1, hrecv]

/-- What the parser holds from FP_CLR to the end of an exchange, whatever arrives: bytes with nothing latched, or a
result that is a verdict on its line or a failure without a line. -/
inductive Receiving : FpState × Bytes × Bytes × Status × Bool × Config.Params → Prop
  | collecting (buf : Bytes) (p : Config.Params) : Receiving (.collect, buf, [], .stNone, false, p)
  | judged (line : Bytes) (p : Config.Params) : Receiving (.done, [], line, judge line, false, p)
  | failed {st : Status} (p : Config.Params) (fault : st = .stOverrun ∨ st = .stTransportFault) :
      Receiving (.done, [], [], st, false, p)

/-- Nothing is latched yet in a state that is collecting. -/
theorem Receiving.of_collect {s : State} (h : Receiving (fpView s)) (hs : s.fpState = .collect) :
    s.rxLine = [] ∧ s.rxStatus = .stNone ∧ s.ackOk = false := by
  generalize hv : fpView s = v at h
  cases h with
  | collecting buf p =>
    obtain ⟨_, _, hline, hstatus, hack, _⟩ := fpView_eq_iff.mp hv
    exact ⟨hline, hstatus, hack⟩
  | judged line p =>
    rw [(fpView_eq_iff.mp hv).1] at hs
    cases hs
  | failed p fault =>
    rw [(fpView_eq_iff.mp hv).1] at hs
    cases hs

theorem receiving_after {i : Instr} (hi : (∃ b, i = .fpByte b) ∨ i = .fpAbort) {s : State}
    (h : Receiving (fpView s)) : Receiving (fpView (after i s)) := by
  cases parserMove i s with
  | stays view => rw [view]; exact h
  | stores b own collecting data room view =>
    obtain ⟨hline, hstatus, hack⟩ := h.of_collect collecting
    rw [view, hline, hstatus, hack]
    exact .collecting _ _
  | latches st line own collecting result view =>
    obtain ⟨_, _, hack⟩ := h.of_collect collecting
    rw [view, hack]
    cases result with
    | completed ended verdict => rw [verdict]; exact .judged _ _
    | failed empty fault => rw [empty]; exact .failed _ fault
  | clears own view => rcases hi with ⟨_, rfl⟩ | rfl <;> simp at own
  | judges ok own latched verified view => rcases hi with ⟨_, rfl⟩ | rfl <;> simp at own
  | keepsFailure own latched failed view => rcases hi with ⟨_, rfl⟩ | rfl <;> simp at own

theorem receiving_afterAll_rx (bs : Bytes) {s : State} (h : Receiving (fpView s)) :
    Receiving (fpView (afterAll (rxSeqEvents bs) s)) := by
  induction bs generalizing s with
  | nil => exact h
  | cons b bs ih => exact ih (receiving_after (.inl ⟨b, rfl⟩) h)

/-- An exchange ends with a result, whatever arrives. -/
theorem receiving_exchange (x : Exchange) (s : State) :
    Receiving (fpView (afterAll (exchangeEvents x) s)) ∧ (afterAll (exchangeEvents x) s).fpState = .done := by
  rw [afterAll_exchangeEvents]
  have hcleared : Receiving (fpView (after .fpClr s)) := .collecting [] s.params
  exact ⟨receiving_after (.inr rfl) (receiving_afterAll_rx (arrivedBytes x) hcleared), after_fpAbort_fpState _⟩

end Sys2Proof.Machine
end

section
/-! PROOFS. The transaction and the typed operations (43_session_commands.md R175 to R190; 60_exceptions.md R220). -/

namespace Sys2Proof.Machine

/-- Settles O47: the codes are the table's, and each function undoes the other on the eight values. -/
theorem statusCodesAreTheTable : Obligations.StatusCodesAreTheTable := by
  refine ⟨rfl, fun st => ?_, by decide⟩
  cases st <;> rfl

/-- The result and the state of every operation on a closed session (R175 step 1). -/
def portNotOpen (s : State) : Host.Outcome (OpResult × State) Fault Refusal :=
  .next (⟨false, ⟨.stPortUnavailable, .portNotOpen⟩, []⟩, setSessionStatus ⟨.stPortUnavailable, .portNotOpen⟩ s)

theorem transmit_closed (code : Pair) (a b : Bytes) (x : Exchange) {s : State} (h : s.session.isOpen = false) :
    transmit code a b x s = portNotOpen s :=
  transmit_spec_closed code a b x h

theorem finishRead_of_failure {rs : OpResult × State} (h : rs.1.success = false) : finishRead rs = rs := by
  rw [finishRead, if_neg (by simp [h])]

theorem readRegister_closed (code : Pair) (a b : Bytes) (x : Exchange) {s : State} (h : s.session.isOpen = false) :
    readRegister code a b x s = portNotOpen s := by
  rw [readRegister, transmit_closed code a b x h, portNotOpen, andThen_next, finishRead_of_failure rfl]

theorem setOperationMode_closed (mode : Pair) (x : Exchange) {s : State} (h : s.session.isOpen = false) :
    setOperationMode mode x s = portNotOpen s := by
  rw [setOperationMode, transmit_closed _ _ _ x h, portNotOpen, andThen_next, if_neg Bool.false_ne_true]

/-- Settles O52: the typed reads are `readRegister` and the weak writes `transmit`. -/
theorem closedSessionSendsNothing : Obligations.ClosedSessionSendsNothing := by
  intro code mode a b args f x s hclosed op hop
  have hfails : op = portNotOpen s := by
    rcases hop with rfl | rfl | rfl | rfl | rfl | rfl | rfl
    · exact transmit_closed code a b x hclosed
    · exact readRegister_closed code a b x hclosed
    · exact readRegister_closed _ _ _ x hclosed
    · exact setOperationMode_closed mode x hclosed
    · exact transmit_closed _ _ _ x hclosed
    · exact transmit_closed _ _ _ x hclosed
    · exact transmit_closed _ _ _ x hclosed
  exact ⟨_, _, hfails, rfl, rfl, rfl, rfl⟩

/-- The operation answers a result, keeps the open flag and the address, and its status is the session's (R188). -/
def Reports (s : State) (op : Host.Outcome (OpResult × State) Fault Refusal) : Prop :=
  ∃ r t, op = .next (r, t) ∧ t.session.isOpen = s.session.isOpen ∧ t.session.address = s.session.address ∧
    t.session.status = r.status

theorem transmit_reports (code : Pair) (a b : Bytes) (x : Exchange) (s : State) :
    Reports s (transmit code a b x s) := by
  cases hopen : s.session.isOpen with
  | false => exact ⟨_, _, transmit_closed code a b x hopen, rfl, rfl, rfl⟩
  | true =>
    obtain ⟨u, hu, _, _, hsession⟩ := transmit_spec_open code a b x hopen
    have hkept : u.session.isOpen = s.session.isOpen ∧ u.session.address = s.session.address := by
      rw [hsession]
      exact ⟨rfl, rfl⟩
    exact ⟨_, _, hu, hkept.1, hkept.2, rfl⟩

theorem finishRead_session (rs : OpResult × State) (h : rs.2.session.status = rs.1.status) :
    (finishRead rs).2.session = { rs.2.session with status := (finishRead rs).1.status } := by
  rcases finishRead_cases rs with ⟨_, hf⟩ | ⟨_, _, hf⟩ | ⟨_, _, hf⟩
  · rw [hf, ← h]
  · rw [hf, ← h]
  · rw [hf]
    rfl

theorem readRegister_reports (code : Pair) (a b : Bytes) (x : Exchange) (s : State) :
    Reports s (readRegister code a b x s) := by
  obtain ⟨r, t, ht, hopen, haddr, hstatus⟩ := transmit_reports code a b x s
  have hsession := finishRead_session (r, t) hstatus
  refine ⟨_, _, by rw [readRegister, ht, andThen_next], ?_⟩
  rw [hsession]
  exact ⟨hopen, haddr, rfl⟩

theorem setOperationMode_reports (mode : Pair) (x : Exchange) (s : State) : Reports s (setOperationMode mode x s) := by
  obtain ⟨r, t, ht, hopen, haddr, hstatus⟩ := transmit_reports (Config.writeCode .setOperation)
    (Config.payloadOpMode mode).1 (Config.payloadOpMode mode).2 x s
  rw [setOperationMode, ht, andThen_next]
  cases hr : r.success with
  | false => exact ⟨r, t, rfl, hopen, haddr, hstatus⟩
  | true =>
    have hsession := (after_keeps (.ackChk (Config.writeCode .setOperation) mode) t).2.1
    rw [if_pos rfl, exec_eq, andThen_next]
    exact ⟨_, _, rfl, (congrArg Session.isOpen hsession).trans hopen,
      (congrArg Session.address hsession).trans haddr, rfl⟩

/-- Settles O58: each operation is a transaction, a read or the acknowledged write. -/
theorem hostOperationsAlwaysReturn : Obligations.HostOperationsAlwaysReturn := by
  intro code mode a b args f x s op hop
  rcases hop with rfl | rfl | rfl | rfl | rfl | rfl | rfl
  · exact transmit_reports code a b x s
  · exact readRegister_reports code a b x s
  · exact readRegister_reports _ _ _ x s
  · exact setOperationMode_reports mode x s
  · exact transmit_reports _ _ _ x s
  · exact transmit_reports _ _ _ x s
  · exact transmit_reports _ _ _ x s

/-- The two texts and the status recorded in the session (R175 step 5). -/
def recorded (tx rx : Bytes) (st : SessionStatus) (s : State) : State :=
  { s with session := { s.session with lastTx := tx, lastRx := rx, status := st } }

theorem finishTransmit_of_success (tx : Bytes) {st : SessionStatus} (h : st.code = .stOk) (s : State) :
    finishTransmit tx st s = (⟨true, st, s.rxLine⟩, recorded tx s.rxLine st s) := by
  simp [finishTransmit, recorded, receivedText, h]

theorem finishTransmit_of_failure (tx : Bytes) {st : SessionStatus} (h : st.code ≠ .stOk) (s : State) :
    finishTransmit tx st s = (⟨false, st, []⟩, recorded tx (receivedText st s.rxLine) st s) := by
  simp [finishTransmit, recorded, h]

theorem transmitStatus_of_line (cause : FaultCause) {line : Bytes} (h : line ≠ []) :
    transmitStatus cause (judge line) = okStatus := by
  rcases judge_cases line with ⟨hline, _⟩ | ⟨_, _, hj⟩ | ⟨_, _, hj⟩
  · exact absurd hline h
  · rw [hj]; rfl
  · rw [hj]; rfl

/-- The session's transaction once the request is written, by what FP latched (R175, R179). -/
theorem transmit_of_writeOk (code : Pair) (a b : Bytes) {x : Exchange} {s : State} (hopen : s.session.isOpen = true)
    (hw : x.writeOk = true) :
    ∃ u, transmit code a b x s =
        .next (finishTransmit (buildRequest s.session.address code a b) (transmitStatus x.cause u.rxStatus) u) ∧
      fbView u = fbView (afterAll (buildEvents s.session.address code a b) s) ∧
      fpView u = fpView (afterAll (exchangeEvents x) s) ∧ u.session = s.session := by
  obtain ⟨u, hu, hviews⟩ := transmit_spec_open code a b x hopen
  rw [if_pos hw] at hu
  exact ⟨u, hu, hviews⟩

/-- A transaction that reads a non-empty line succeeds with it, whatever its checksum (R179). -/
theorem transmit_of_line (code : Pair) (a b : Bytes) {line rest : Bytes} {x : Exchange} {s : State}
    (hopen : s.session.isOpen = true) (hne : line ≠ []) (hterm : hasTerminator line = false)
    (hcap : ∀ cap, s.params.rxCap = .finite cap → line.length + 1 ≤ cap) (hw : x.writeOk = true)
    (hx : x.early ++ x.response = line ++ [0x2A#8, 0x0D#8] ++ rest) :
    ∃ u, transmit code a b x s = .next (⟨true, okStatus, line⟩,
        recorded (buildRequest s.session.address code a b) line okStatus u) ∧
      fbView u = fbView (afterAll (buildEvents s.session.address code a b) s) ∧
      fpView u = (.done, [], line, judge line, false, s.params) ∧ u.session = s.session := by
  obtain ⟨u, hu, hfb, hfp, hsession⟩ := transmit_of_writeOk code a b hopen hw
  rw [fpView_exchange_line hterm hcap ((arrivedBytes_of_writeOk hw).trans hx)] at hfp
  obtain ⟨_, _, hline, hstatus, _, _⟩ := fpView_eq_iff.mp hfp
  rw [hstatus, transmitStatus_of_line x.cause hne, finishTransmit_of_success _ rfl, hline] at hu
  exact ⟨u, hu, hfb, hfp, hsession⟩

/-- Settles O53: the line is the exchange's, the emitted bytes are BUILD's. -/
theorem transmitDeliversTheLine : Obligations.TransmitDeliversTheLine := by
  intro code a b line junk x s hopen hidle hne hterm hcap hw hx
  obtain ⟨u, hu, hfb, hfp, hsession⟩ := transmit_of_line code a b hopen hne hterm hcap hw hx
  obtain ⟨hstate, _, hout⟩ := fbView_eq_iff.mp (hfb.trans (fbView_afterAll_build hidle s.session.address code a b))
  obtain ⟨_, _, _, hstatus, _, _⟩ := fpView_eq_iff.mp hfp
  refine ⟨_, _, hu, rfl, rfl, rfl, hout, hstate, ?_, ?_⟩
  · exact hstatus.trans ((judge_eq line).trans (if_neg hne))
  · rw [recorded, hsession]

/-- Settles O57: the three weak writes are transactions and nothing more. -/
theorem weakWritesIgnoreTheChecksum : Obligations.WeakWritesIgnoreTheChecksum := by
  intro temp slope line junk args x s hopen hne hterm hcap hw hx op hop
  have hsucceeds (code : Pair) (a b : Bytes) : ∃ r t, transmit code a b x s = .next (r, t) ∧ r.success = true ∧
      t.ackOk = false ∧ t.session.lastRx = line := by
    obtain ⟨u, hu, _, hfp, _⟩ := transmit_of_line code a b hopen hne hterm hcap hw hx
    obtain ⟨_, _, _, _, hack, _⟩ := fpView_eq_iff.mp hfp
    exact ⟨_, _, hu, rfl, hack, rfl⟩
  rcases hop with rfl | rfl | rfl
  · exact hsucceeds _ _ _
  · exact hsucceeds _ _ _
  · exact hsucceeds _ _ _

end Sys2Proof.Machine
end

section
/-! PROOFS. Transactions that read no line, read_register, and the acknowledged write (43_session_commands.md R175,
R179, R180, R183, R190). -/

namespace Sys2Proof.Machine

/-- A line read reports the latched status itself but for the checksum, which it does not judge (R179). -/
theorem transmitStatus_code {st : Status} (h : st ≠ .stChecksumMismatch) (cause : FaultCause) :
    (transmitStatus cause st).code = st := by
  cases st with
  | stChecksumMismatch => exact absurd rfl h
  | stNone | stOk | stPortUnavailable | stTransportFault | stAckMismatch | stEmptyResponse | stOverrun => rfl

theorem receivedText_nil (st : SessionStatus) : receivedText st [] = [] := by
  rw [receivedText]
  split <;> rfl

/-- A transaction for which FP latched a failure without a line (R175, R179). -/
theorem finishTransmit_without_line (tx : Bytes) (cause : FaultCause) {u : State} {st : Status} {p : Config.Params}
    (hfp : fpView u = (.done, [], [], st, false, p)) (hok : st ≠ .stOk) (hsum : st ≠ .stChecksumMismatch) :
    finishTransmit tx (transmitStatus cause u.rxStatus) u =
      (⟨false, transmitStatus cause st, []⟩, recorded tx [] (transmitStatus cause st) u) := by
  obtain ⟨_, _, hline, hstatus, _, _⟩ := fpView_eq_iff.mp hfp
  rw [hstatus, finishTransmit_of_failure tx (by rwa [transmitStatus_code hsum]), hline, receivedText_nil]

/-- A transaction whose request could not be written records no received text, whatever was latched (R175 step 3). -/
theorem finishTransmit_writeFault (tx : Bytes) (cause : FaultCause) (u : State) :
    finishTransmit tx (writeFaultStatus cause) u =
      (⟨false, writeFaultStatus cause, []⟩, recorded tx [] (writeFaultStatus cause) u) := by
  have hfault : (writeFaultStatus cause).code = .stTransportFault := rfl
  rw [finishTransmit_of_failure tx (by rw [hfault]; decide), receivedText, if_pos hfault]

/-- Legal capacities have room for the `*` of an empty line (R5). -/
theorem one_le_cap {p : Config.Params} (h : p.wellFormed = true) {cap : Nat} (hcap : p.rxCap = .finite cap) :
    0 + 1 ≤ cap := by
  rw [Config.Params.wellFormed, hcap] at h
  have h3 : 3 ≤ cap := of_decide_eq_true h
  omega

/-- Settles O54: each outcome of the exchange is one of `fpView_exchange_open`, `fpView_exchange_line` for the empty
line and `fpView_exchange_overrun`. -/
theorem transmitFailsWithoutALine : Obligations.TransmitFailsWithoutALine := by
  intro code a b rest x s hopen
  obtain ⟨u, hu, _, hfp, hsession⟩ := transmit_spec_open code a b x hopen
  generalize hrt : finishTransmit _ _ u = rt at hu
  obtain ⟨r, t⟩ := rt
  have hkept : t.session.isOpen = u.session.isOpen ∧ t.session.lastTx = buildRequest s.session.address code a b := by
    cases hrt
    exact ⟨rfl, rfl⟩
  have hfails {st : Status} (hw : x.writeOk = true) (hok : st ≠ .stOk) (hsum : st ≠ .stChecksumMismatch)
      (hx : fpView (afterAll (exchangeEvents x) s) = (.done, [], [], st, false, s.params)) :
      r.success = false ∧ r.data = [] ∧ r.status.code = st ∧ t.rxStatus = st ∧ t.session.lastRx = [] := by
    obtain ⟨_, _, _, hstatus, _⟩ := fpView_eq_iff.mp (hfp.trans hx)
    rw [if_pos hw, finishTransmit_without_line _ _ (hfp.trans hx) hok hsum] at hrt
    cases hrt
    exact ⟨rfl, rfl, transmitStatus_code hsum _, hstatus, rfl⟩
  refine ⟨r, t, hu, by rw [hkept.1, hsession, hopen], fun _ => hkept.2, fun hw hterm hcap => ?_,
    fun hw hparams hx => ?_, fun cap hw hcap hlong hterm => ?_, fun hw => ?_⟩
  · rw [← arrivedBytes_of_writeOk hw] at hterm hcap
    exact hfails hw (by decide) (by decide) (fpView_exchange_open hterm hcap)
  · rw [← arrivedBytes_of_writeOk hw] at hx
    exact hfails hw (by decide) (by decide)
      (fpView_exchange_line (line := []) rfl (fun _ hcap => one_le_cap hparams hcap) hx)
  · rw [← arrivedBytes_of_writeOk hw] at hlong hterm
    exact hfails hw (by decide) (by decide) (fpView_exchange_overrun hcap hlong hterm)
  · rw [if_neg (by simp [hw]), finishTransmit_writeFault] at hrt
    cases hrt
    exact ⟨rfl, rfl, rfl, rfl⟩

/-- What read_register reports beside what FP latched (R180). -/
def ReadAgrees (rt : OpResult × State) : Prop :=
  (rt.1.success = true ↔ rt.2.rxStatus = .stOk) ∧ (rt.1.success = true → rt.1.data = rxBody rt.2) ∧
    (rt.1.success = false → rt.1.data = []) ∧
    (rt.2.rxStatus = .stChecksumMismatch →
      rt.1.status.code = .stChecksumMismatch ∧ statusString rt.1.status.text = "checksum error") ∧
    rt.2.session.lastRx = rt.2.rxLine ∧ rt.2.session.status = rt.1.status

theorem readAgrees_of_failure (tx : Bytes) (cause : FaultCause) {u : State} {st : Status} {p : Config.Params}
    (hfp : fpView u = (.done, [], [], st, false, p)) (hok : st ≠ .stOk) (hsum : st ≠ .stChecksumMismatch) :
    ReadAgrees (finishRead (finishTransmit tx (transmitStatus cause u.rxStatus) u)) := by
  obtain ⟨_, _, hline, hstatus, _⟩ := fpView_eq_iff.mp hfp
  rw [finishTransmit_without_line tx cause hfp hok hsum, finishRead_of_failure rfl]
  exact ⟨⟨nofun, fun h => absurd (hstatus.symm.trans h) hok⟩, nofun, fun _ => rfl,
    fun h => absurd (hstatus.symm.trans h) hsum, hline.symm, rfl⟩

theorem finishRead_of_verified {r : OpResult} {t : State} (hr : r.success = true) (hv : verify r.data = true) :
    finishRead (r, t) = (⟨true, r.status, bodyOf r.data⟩, t) := by
  rw [finishRead, if_pos hr, if_pos hv]

theorem finishRead_of_not_verified {r : OpResult} {t : State} (hr : r.success = true) (hv : verify r.data = false) :
    finishRead (r, t) = (⟨false, ⟨.stChecksumMismatch, .checksumError⟩, []⟩,
      setSessionStatus ⟨.stChecksumMismatch, .checksumError⟩ t) := by
  rw [finishRead, if_pos hr, if_neg (by simp [hv])]

/-- On a completed line read_register makes the test FP made (R180 step 3, R144). -/
theorem readAgrees_of_line (tx : Bytes) (cause : FaultCause) {u : State} {line : Bytes} {p : Config.Params}
    (hfp : fpView u = (.done, [], line, judge line, false, p)) :
    ReadAgrees (finishRead (finishTransmit tx (transmitStatus cause u.rxStatus) u)) := by
  obtain ⟨_, _, hline, hstatus, _⟩ := fpView_eq_iff.mp hfp
  rcases judge_cases line with ⟨rfl, hj⟩ | ⟨hne, hv, hj⟩ | ⟨hne, hv, hj⟩
  · rw [hj] at hfp
    exact readAgrees_of_failure tx cause hfp (by decide) (by decide)
  · have hok : u.rxStatus = .stOk := hstatus.trans hj
    rw [hstatus, transmitStatus_of_line cause hne, finishTransmit_of_success tx rfl, hline,
      finishRead_of_verified rfl hv]
    exact ⟨⟨fun _ => hok, fun _ => rfl⟩, fun _ => congrArg bodyOf hline.symm, nofun,
      fun h => absurd (hok.symm.trans h) (by decide), hline.symm, rfl⟩
  · have hsum : u.rxStatus = .stChecksumMismatch := hstatus.trans hj
    rw [hstatus, transmitStatus_of_line cause hne, finishTransmit_of_success tx rfl, hline,
      finishRead_of_not_verified rfl hv]
    exact ⟨⟨nofun, fun h => absurd (hsum.symm.trans h) (by decide)⟩, nofun, fun _ => rfl, fun _ => ⟨rfl, rfl⟩,
      hline.symm, rfl⟩

theorem readAgrees_of_receiving (tx : Bytes) (cause : FaultCause) {u : State} (h : Receiving (fpView u))
    (hdone : u.fpState = .done) : ReadAgrees (finishRead (finishTransmit tx (transmitStatus cause u.rxStatus) u)) := by
  generalize hv : fpView u = v at h
  cases h with
  | collecting buf p =>
    rw [(fpView_eq_iff.mp hv).1] at hdone
    cases hdone
  | judged line p => exact readAgrees_of_line tx cause hv
  | failed p fault =>
    rcases fault with rfl | rfl
    · exact readAgrees_of_failure tx cause hv (by decide) (by decide)
    · exact readAgrees_of_failure tx cause hv (by decide) (by decide)

/-- Settles O55: an exchange ends with a verdict on its line or with a failure, whatever arrives. -/
theorem readRegisterSucceedsExactlyOnOk : Obligations.ReadRegisterSucceedsExactlyOnOk := by
  intro code a b x s hopen hw
  obtain ⟨u, hu, _, hfp, _⟩ := transmit_of_writeOk code a b hopen hw
  obtain ⟨hreceiving, hdone⟩ := receiving_exchange x s
  have hagrees := readAgrees_of_receiving (buildRequest s.session.address code a b) x.cause (hfp ▸ hreceiving)
    ((congrArg Prod.fst hfp).trans hdone)
  obtain ⟨r, t, hread, hkept, _, _⟩ := readRegister_reports code a b x s
  have hresult := hread
  rw [readRegister, hu, andThen_next] at hresult
  rw [Host.Outcome.next.inj hresult] at hagrees
  obtain ⟨hsucc, hdata, hnone, hsum, hrx, hstatus⟩ := hagrees
  exact ⟨r, t, hread, hsucc, hdata, hnone, hsum, hrx, hstatus, hkept.trans hopen⟩

/-- ACK_CHK on a latched line: the checksum decides first, then both echoed fields (R150). -/
theorem ackChk_of_line {t : State} {line : Bytes} {p : Config.Params} (hne : line ≠ [])
    (hfp : fpView t = (.done, [], line, judge line, false, p)) (sig mode : Pair) :
    (after (.ackChk sig mode) t).ackOk = (verify line && ackMatch p.ackModeOffset line sig mode) ∧
      (after (.ackChk sig mode) t).rxStatus = if verify line then
        if ackMatch p.ackModeOffset line sig mode then .stOk else .stAckMismatch else .stChecksumMismatch := by
  obtain ⟨hdone, _, rfl, hstatus, _, rfl⟩ := fpView_eq_iff.mp hfp
  rw [after_ackChk_of_done hdone]
  rcases judge_cases t.rxLine with ⟨hnil, _⟩ | ⟨_, hv, hj⟩ | ⟨_, hv, hj⟩
  · exact absurd hnil hne
  · rw [ackVerdict_of_verified (.inl (hstatus.trans hj)), hv]
    cases ackMatch t.params.ackModeOffset t.rxLine sig mode with
    | true => exact ⟨rfl, rfl⟩
    | false => exact ⟨rfl, rfl⟩
  · have hsum : t.rxStatus = .stChecksumMismatch := hstatus.trans hj
    rw [ackVerdict_of_failed (by simp [hsum]), hv]
    exact ⟨rfl, hsum⟩

/-- What set_operation_mode answers when its transaction answered a success (R183). -/
theorem setOperationMode_of_success {mode : Pair} {x : Exchange} {s t : State} {r : OpResult}
    (h : transmit (Config.writeCode .setOperation) (Config.payloadOpMode mode).1 (Config.payloadOpMode mode).2 x s =
      .next (r, t)) (hr : r.success = true) :
    setOperationMode mode x s =
      .next (⟨(after (.ackChk Config.setOperationCode mode) t).ackOk,
          ackSessionStatus (after (.ackChk Config.setOperationCode mode) t).rxStatus, []⟩,
        setSessionStatus (ackSessionStatus (after (.ackChk Config.setOperationCode mode) t).rxStatus)
          (after (.ackChk Config.setOperationCode mode) t)) := by
  rw [setOperationMode, h, andThen_next, if_pos hr, exec_eq, andThen_next]
  rfl

/-- Settles O56: the transaction reads the line, and `ackChk_of_line` is the verdict on it. -/
theorem setOperationModeChecksTwice : Obligations.SetOperationModeChecksTwice := by
  intro mode line junk x s hopen hne hterm hcap hw hx
  obtain ⟨u, hu, _, hfp, _⟩ := transmit_of_line (Config.writeCode .setOperation) (Config.payloadOpMode mode).1
    (Config.payloadOpMode mode).2 hopen hne hterm hcap hw hx
  obtain ⟨hack, hstatus⟩ := ackChk_of_line (t := recorded _ line okStatus u) hne hfp Config.setOperationCode mode
  refine ⟨_, _, setOperationMode_of_success hu rfl, ?_, Iff.rfl, fun hv => ?_, fun hv hm => ?_, rfl⟩
  · rw [hack, Bool.and_eq_true]
    rfl
  · rw [hstatus, hv]
    rfl
  · have hm' : ackMatch s.params.ackModeOffset line Config.setOperationCode mode = false := hm
    rw [hstatus, hv, hm']
    exact ⟨rfl, rfl⟩

/-- The state with another `ACK_MODE_OFFSET`. -/
def withAckOffset (n : Nat) (s : State) : State := { s with params := { s.params with ackModeOffset := n } }

/-- Receiving does not look at `ACK_MODE_OFFSET` (R140). -/
theorem takeByte_withAckOffset (n : Nat) (b : Byte) (s : State) :
    takeByte b (withAckOffset n s) = withAckOffset n (takeByte b s) := by
  cases hs : s.fpState with
  | done => rw [takeByte_done hs, takeByte_done (s := withAckOffset n s) hs]
  | collect =>
    simp only [takeByte, withAckOffset, hs, complete_eq]
    split_ifs <;> rfl

theorem afterAll_rx_withAckOffset (n : Nat) (bs : Bytes) (s : State) :
    afterAll (rxSeqEvents bs) (withAckOffset n s) = withAckOffset n (afterAll (rxSeqEvents bs) s) := by
  induction bs generalizing s with
  | nil => rfl
  | cons b bs ih =>
    have hbyte : after (.fpByte b) (withAckOffset n s) = withAckOffset n (after (.fpByte b) s) :=
      congrArg accepted (takeByte_withAckOffset n b s)
    rw [rxSeqEvents, List.map_cons, afterAll_cons, afterAll_cons, hbyte]
    exact ih _

theorem after_fpAbort_withAckOffset (n : Nat) (s : State) :
    after .fpAbort (withAckOffset n s) = withAckOffset n (after .fpAbort s) := by
  cases hs : s.fpState with
  | collect => rw [after_fpAbort_of_collect hs, after_fpAbort_of_collect (s := withAckOffset n s) hs]; rfl
  | done => rw [after_fpAbort_of_done hs, after_fpAbort_of_done (s := withAckOffset n s) hs]; rfl

theorem afterAll_exchange_withAckOffset (n : Nat) (x : Exchange) (s : State) :
    afterAll (exchangeEvents x) (withAckOffset n s) = withAckOffset n (afterAll (exchangeEvents x) s) := by
  rw [afterAll_exchangeEvents, afterAll_exchangeEvents, ← after_fpAbort_withAckOffset]
  exact congrArg (after .fpAbort) (afterAll_rx_withAckOffset n (arrivedBytes x) (after .fpClr s))

theorem afterAll_fpView_congr (is : List Instr) {s t : State} (h : fpView s = fpView t) :
    fpView (afterAll is s) = fpView (afterAll is t) := by
  induction is generalizing s t with
  | nil => exact h
  | cons i is ih => exact ih (after_fpView_congr i h)

/-- What an exchange latches depends on the capacity alone: FP_CLR forgets what was there (R141, R261). -/
theorem exchange_congr (x : Exchange) {s s' : State} (hcap : s.params.rxCap = s'.params.rxCap) :
    (afterAll (exchangeEvents x) s).rxLine = (afterAll (exchangeEvents x) s').rxLine ∧
      (afterAll (exchangeEvents x) s).rxStatus = (afterAll (exchangeEvents x) s').rxStatus := by
  have hparams : s.params = (withAckOffset s.params.ackModeOffset s').params :=
    congrArg (Config.Params.mk · s.params.ackModeOffset) hcap
  have hcleared : fpView (after .fpClr s) = fpView (after .fpClr (withAckOffset s.params.ackModeOffset s')) :=
    congrArg (fun p => (FpState.collect, [], [], Status.stNone, false, p)) hparams
  have hview : fpView (afterAll (exchangeEvents x) s) =
      fpView (afterAll (exchangeEvents x) (withAckOffset s.params.ackModeOffset s')) := by
    rw [afterAll_exchangeEvents, afterAll_exchangeEvents]
    exact after_fpView_congr .fpAbort (afterAll_fpView_congr (rxSeqEvents (arrivedBytes x)) hcleared)
  rw [afterAll_exchange_withAckOffset] at hview
  obtain ⟨_, _, hline, hstatus, _⟩ := fpView_eq_iff.mp hview
  exact ⟨hline, hstatus⟩

theorem finishTransmit_fst_congr (tx : Bytes) (st : SessionStatus) {u v : State} (h : u.rxLine = v.rxLine) :
    (finishTransmit tx st u).1 = (finishTransmit tx st v).1 := by
  rw [finishTransmit, finishTransmit, h]

/-- What reading reports does not depend on the state the transaction left. -/
theorem finishRead_fst_congr {rs rs' : OpResult × State} (h : rs.1 = rs'.1) :
    (finishRead rs).1 = (finishRead rs').1 := by
  simp only [finishRead, ← h]
  split_ifs
  · rfl
  · rfl
  · exact h

theorem finishRead_txOut (rs : OpResult × State) : (finishRead rs).2.txOut = rs.2.txOut := by
  rcases finishRead_cases rs with ⟨_, hf⟩ | ⟨_, _, hf⟩ | ⟨_, _, hf⟩ <;> rw [hf]
  rfl

/-- read_register on an open session: what it emits, and from what its result is taken. -/
theorem readRegister_open (code : Pair) (a b : Bytes) (x : Exchange) {s : State} (h : s.session.isOpen = true) :
    ∃ u, readRegister code a b x s = .next (finishRead (finishTransmit (buildRequest s.session.address code a b)
        (if x.writeOk then transmitStatus x.cause u.rxStatus else writeFaultStatus x.cause) u)) ∧
      u.rxLine = (afterAll (exchangeEvents x) s).rxLine ∧ u.rxStatus = (afterAll (exchangeEvents x) s).rxStatus ∧
      (s.fbState = .idle → u.txOut = s.txOut ++ buildRequest s.session.address code a b) := by
  obtain ⟨u, hu, hfb, hfp, _⟩ := transmit_spec_open code a b x h
  obtain ⟨_, _, hline, hstatus, _⟩ := fpView_eq_iff.mp hfp
  refine ⟨u, by rw [readRegister, hu, andThen_next], hline, hstatus, fun hidle => ?_⟩
  exact (fbView_eq_iff.mp (hfb.trans (fbView_afterAll_build hidle _ code a b))).2.2

/-- Settles O59: on a closed session nothing is sent; on an open one FP latches the same from both states, and BUILD
emits the same request. -/
theorem repeatedReadReturnsTheSameBody : Obligations.RepeatedReadReturnsTheSameBody := by
  intro code a b x s s' hopen haddr hcap hfb
  cases hs : s.session.isOpen with
  | false =>
    exact ⟨_, _, _, readRegister_closed code a b x hs, readRegister_closed code a b x (hopen ▸ hs),
      fun _ => ⟨[], by simp, by simp⟩⟩
  | true =>
    obtain ⟨u, hu, hline, hstatus, hout⟩ := readRegister_open code a b x hs
    obtain ⟨v, hv, hline', hstatus', hout'⟩ := readRegister_open code a b x (hopen ▸ hs)
    obtain ⟨hlines, hstatuses⟩ := exchange_congr x hcap
    have hsame : u.rxLine = v.rxLine := by rw [hline, hline', hlines]
    rw [hstatus', ← hstatuses, ← hstatus, ← haddr] at hv
    rw [← haddr, ← hfb] at hout'
    generalize buildRequest s.session.address code a b = frame at hu hv hout hout'
    generalize (if x.writeOk then transmitStatus x.cause u.rxStatus else writeFaultStatus x.cause) = st at hu hv
    have hresult := finishRead_fst_congr (finishTransmit_fst_congr frame st hsame)
    exact ⟨(finishRead (finishTransmit frame st u)).1, _, (finishRead (finishTransmit frame st v)).2, hu,
      hv.trans (congrArg Host.Outcome.next (Prod.ext hresult.symm rfl)),
      fun hidle => ⟨frame, (finishRead_txOut _).trans (hout hidle), (finishRead_txOut _).trans (hout' hidle)⟩⟩

end Sys2Proof.Machine
end
